-- ==== Sys2Proof/Word.lean ====
section
/-! DEFINITION. The words of the block: every value is an unsigned integer of a stated width, bit 0 the least
significant (00_scope.md R3, R5). Nothing in the block is signed. -/

namespace Sys2Proof

/-- A 64-bit word: the generator state, a mask, an operand or a result (00_scope.md R3, `W`). -/
abbrev Word := BitVec 64

/-- A 32-bit shift amount, kept and used at its full value (00_scope.md R3; 30_encoding.md R51). -/
abbrev Amount := BitVec 32

/-- A command: one 163-bit bundle `cmd[162:0]` (30_encoding.md R45). -/
abbrev Bundle := BitVec 163

/-- A response as one 66-bit bundle `rsp[65:0]` (30_encoding.md R50). -/
abbrev RspBundle := BitVec 66

end Sys2Proof
end

