-- ==== Sys2Proof/Config.lean ====
section
/-! DEFINITION. The fixed parameters of the block (00_scope.md R3, R4): each is a constant of the design, none is
left to an implementation, and the spec leaves no value of an instruction open (92_eei_decisions.md, "No point is left
OPEN"), so this file declares no free value. -/

namespace Sys2Proof

/-- `MASK64`: the word with every bit set, `2^64 - 1` (00_scope.md R3). -/
abbrev Config.mask64 : Word := 0xFFFFFFFFFFFFFFFF#64

/-- A round of the pipeline, 0 to 63 (00_scope.md R3, `NROUND`; 42_mixing_pipeline.md R95). -/
abbrev Round := Fin 64

/-- A word index of the mask table, 0 to 127 (00_scope.md R3, `NMASK`; 20_memory.md R30). -/
abbrev MaskIndex := Fin 128

/-- The content of a whole mask table: 128 words (41_table_build.md R81, 42_mixing_pipeline.md R97: the table `m`). -/
abbrev Table := Vector Word 128

end Sys2Proof
end

