-- ==== Sys2Proof/Syntax.lean ====
section
/-! DEFINITION. The commands of the block, one constructor per row of spec/opcode_table.json (30_encoding.md R48).
The spec's rule R49 names one outcome RESERVED for the opcodes 0, 6 and 7; the table gives each a row of its own and so
does this type (log 8). -/

namespace Sys2Proof

/-- A decoded command. Operands have exactly the width of their field (30_encoding.md R46, R51), so every term is a
command the port can carry. -/
inductive Instr where
  /-- Opcode 1, format G: create the generator from a seed and a triplet (40_generator.md R66). -/
  | gload (x : Word) (a b c : Amount)
  /-- Opcode 2, format N: one `advance` step (40_generator.md R70). -/
  | gadv
  /-- Opcode 3, format N: draw 128 words and fill the table (41_table_build.md R82). -/
  | build
  /-- Opcode 4, format X: the forward transform (42_mixing_pipeline.md R98). -/
  | map (x : Word)
  /-- Opcode 5, format X: the inverse transform (42_mixing_pipeline.md R100). -/
  | unmap (x : Word)
  /-- Opcode 0, reserved (30_encoding.md R52). -/
  | reserved0
  /-- Opcode 6, reserved (30_encoding.md R52). -/
  | reserved6
  /-- Opcode 7, reserved (30_encoding.md R52). -/
  | reserved7
  deriving DecidableEq, Repr

end Sys2Proof
end

