-- ==== Sys2Proof/WellFormed.lean ====
section
/-! DEFINITION. What the assembler refuses (30_encoding.md R54). A decoded `Instr` has operands of exactly its fields'
widths and needs no check; a source line has unbounded numbers and is checked here. -/

namespace Sys2Proof

/-- A line of assembler source (30_encoding.md R54), the pseudo-command NEW among them (R55). Literals are unbounded. -/
inductive AsmLine where
  | gload (seed a b c : Nat)
  | gadv
  | build
  | map (x : Nat)
  | unmap (x : Nat)
  /-- `NEW seed, a, b, c`: GLOAD with the same operands, then BUILD (30_encoding.md R55). -/
  | new (seed a b c : Nat)
  deriving DecidableEq, Repr

/-- A seed or `x` the assembler takes: not above `2^64 - 1` (30_encoding.md R54). -/
def fitsWord (n : Nat) : Bool := decide (n ≤ 2 ^ 64 - 1)

/-- A shift amount the assembler takes: not above `2^32 - 1` (30_encoding.md R54). -/
def fitsAmount (n : Nat) : Bool := decide (n ≤ 2 ^ 32 - 1)

/-- The line is one the assembler does not refuse. A zero seed and every amount that fits 32 bits pass
(30_encoding.md R54). -/
def AsmLine.wellFormed : AsmLine → Bool
  | .gload seed a b c => fitsWord seed && fitsAmount a && fitsAmount b && fitsAmount c
  | .gadv => true
  | .build => true
  | .map x => fitsWord x
  | .unmap x => fitsWord x
  | .new seed a b c => fitsWord seed && fitsAmount a && fitsAmount b && fitsAmount c

end Sys2Proof
end

