-- ==== Sys2Proof/Decode.lean ====
section
/-! DEFINITION. The command bundle: its fields, the total decoder, and the encoder (30_encoding.md R46 to R49, R54). -/

namespace Sys2Proof

/-! ### The fields of a bundle (30_encoding.md R46) -/

/-- `op = cmd[2:0]`. -/
def cmdOp (cmd : Bundle) : BitVec 3 := cmd.extractLsb' 0 3

/-- `x = cmd[66:3]`. -/
def cmdX (cmd : Bundle) : Word := cmd.extractLsb' 3 64

/-- `a = cmd[98:67]`. -/
def cmdA (cmd : Bundle) : Amount := cmd.extractLsb' 67 32

/-- `b = cmd[130:99]`. -/
def cmdB (cmd : Bundle) : Amount := cmd.extractLsb' 99 32

/-- `c = cmd[162:131]`. -/
def cmdC (cmd : Bundle) : Amount := cmd.extractLsb' 131 32

/-- The bundle with the given fields, the most significant first (30_encoding.md R46). -/
def bundleOf (op : BitVec 3) (x : Word) (a b c : Amount) : Bundle := c ++ b ++ a ++ x ++ op

/-! ### Decoding (30_encoding.md R48, R49) -/

/-- The decoder. It looks at `cmd[2:0]` alone to choose the command (R48) and is total: every bundle decodes (R49). A
reserved opcode decodes to its own reserved command, never to a neighbour (R52; 93_implementation_defined.md U4). -/
def decode (cmd : Bundle) : Instr :=
  match cmdOp cmd with
  | 0#3 => .reserved0
  | 1#3 => .gload (cmdX cmd) (cmdA cmd) (cmdB cmd) (cmdC cmd)
  | 2#3 => .gadv
  | 3#3 => .build
  | 4#3 => .map (cmdX cmd)
  | 5#3 => .unmap (cmdX cmd)
  | 6#3 => .reserved6
  | 7#3 => .reserved7

/-! ### Encoding -/

/-- The three formats and the reserved rows' `-` (30_encoding.md R47, R48). -/
inductive Format where
  /-- Generator load: uses `op`, `x`, `a`, `b`, `c`. -/
  | g
  /-- One word in, one word out: uses `op`, `x`. -/
  | x
  /-- No operand: uses `op`. -/
  | n
  /-- A reserved opcode: only `op` is looked at. -/
  | reserved
  deriving DecidableEq, Repr

/-- The format uses field `x` (30_encoding.md R47). -/
def Format.usesX : Format → Bool
  | .g => true
  | .x => true
  | .n => false
  | .reserved => false

/-- The format uses the fields `a`, `b` and `c` (30_encoding.md R47). -/
def Format.usesAmounts : Format → Bool
  | .g => true
  | .x => false
  | .n => false
  | .reserved => false

/-- The format of each command (30_encoding.md R48). -/
def Instr.format : Instr → Format
  | .gload _ _ _ _ => .g
  | .gadv => .n
  | .build => .n
  | .map _ => .x
  | .unmap _ => .x
  | .reserved0 => .reserved
  | .reserved6 => .reserved
  | .reserved7 => .reserved

/-- The opcode of each command (30_encoding.md R48). -/
def Instr.opcode : Instr → BitVec 3
  | .gload _ _ _ _ => 1#3
  | .gadv => 2#3
  | .build => 3#3
  | .map _ => 4#3
  | .unmap _ => 5#3
  | .reserved0 => 0#3
  | .reserved6 => 6#3
  | .reserved7 => 7#3

/-- The encoder: the bundle of a command, zero in the fields its format does not use (30_encoding.md R47, R54). -/
def encode : Instr → Bundle
  | .gload x a b c => bundleOf 1#3 x a b c
  | .gadv => bundleOf 2#3 0#64 0#32 0#32 0#32
  | .build => bundleOf 3#3 0#64 0#32 0#32 0#32
  | .map x => bundleOf 4#3 x 0#32 0#32 0#32
  | .unmap x => bundleOf 5#3 x 0#32 0#32 0#32
  | .reserved0 => bundleOf 0#3 0#64 0#32 0#32 0#32
  | .reserved6 => bundleOf 6#3 0#64 0#32 0#32 0#32
  | .reserved7 => bundleOf 7#3 0#64 0#32 0#32 0#32

/-- The bundle with zero in every field its own command's format ignores (30_encoding.md R47, R52). -/
def clearIgnored (cmd : Bundle) : Bundle :=
  let f := (decode cmd).format
  bundleOf (cmdOp cmd)
    (if f.usesX then cmdX cmd else 0#64)
    (if f.usesAmounts then cmdA cmd else 0#32)
    (if f.usesAmounts then cmdB cmd else 0#32)
    (if f.usesAmounts then cmdC cmd else 0#32)

/-! ### Words as spec/opcode_table.json numbers their bits -/

/-- The bundle whose low `nbits` bits are those of `w`, every other bit 0. The port is 163 bits wide (30_encoding.md
R45), so a bit of `w` above bit 162 reaches nothing (log 9). -/
def tableBundle (nbits w : Nat) : Bundle := BitVec.ofNat 163 (w % 2 ^ nbits)

/-- The command the decoder reads from a table word. -/
def decodeTableWord (nbits w : Nat) : Option Instr := some (decode (tableBundle nbits w))

end Sys2Proof
end

