-- ==== Sys2Proof/Machine/State.lean ====
section
/-! DEFINITION. The state of the block: the architectural state of 10_state.md, and beside it the model's own two
fields, the response given and the host's pending input.

ABSENT VALUES ARE THE SPEC'S OWN. Rule R23 of 10_state.md gives the reset content of `state`, the shift registers and
the table as "holds no value", says that a model should represent it "as an absent value (an option type), not as zero",
and 92_eei_decisions.md D7 that a model "must not give them 0 or any other value"; 93_implementation_defined.md U8 makes
a read of one an error. So `none` here is a value of the spec, not a reset value left out (log 1). -/

namespace Sys2Proof.Machine

/-- The lifecycle register (10_state.md R17). Three values: code 3 is never held and cannot be represented
(93_implementation_defined.md U6; log 7). -/
inductive Phase where
  /-- 0: after reset; generator and table hold no value. -/
  | empty
  /-- 1: the generator is loaded; the table holds no value. -/
  | seeded
  /-- 2: the table is built; the generator is discarded. -/
  | built
  deriving DecidableEq, Repr

/-- `rsp_status` (30_encoding.md R50). Status 3 is never produced (93_implementation_defined.md U7; log 7). -/
inductive Status where
  /-- 0: the command was executed. -/
  | ok
  /-- 1: reserved opcode; nothing was executed. -/
  | illegal
  /-- 2: not accepted in the current phase; nothing was executed. -/
  | phase
  deriving DecidableEq, Repr

/-- A response: a 2-bit status and a 64-bit data word (30_encoding.md R50). -/
structure Response where
  status : Status
  data : Word
  deriving DecidableEq, Repr

/-- What the host can do to the block: present a command bundle (30_encoding.md R45), or assert reset between two
commands (70_reset_and_hazards.md R140, R141). -/
inductive HostEvent where
  | command (cmd : Bundle)
  | reset
  deriving DecidableEq, Repr

/-- The mask table as word cells `(index, word)`, listed in strictly rising index order; an index not listed holds no
value (20_memory.md R30; 10_state.md R23). A cell is a whole 64-bit word: the table has no bytes (20_memory.md R30, R37;
log 2). -/
abbrev Memory := List (Nat × Word)

/-- The registers that can hold no value: what an `absentRegister` fault names. -/
inductive GenReg where
  | state
  | shiftA
  | shiftB
  | shiftC
  deriving DecidableEq, Repr

/-- The state of the block. -/
structure State where
  /-- The lifecycle register, 2 bits (10_state.md R17, R18). -/
  phase : Phase
  /-- The generator register, 64 bits; `none` when it holds no value (10_state.md R10, R23). -/
  state : Option Word
  /-- First shift amount, 32 bits; `none` when it holds no value (10_state.md R11, R23). -/
  shiftA : Option Amount
  /-- Second shift amount, 32 bits; `none` when it holds no value (10_state.md R11, R23). -/
  shiftB : Option Amount
  /-- Third shift amount, 32 bits; `none` when it holds no value (10_state.md R11, R23). -/
  shiftC : Option Amount
  /-- The mask table, 128 words of 64 bits (10_state.md R14; 20_memory.md R30). -/
  masks : Memory
  /-- The MODEL's own: the response to the latest command since reset, an output of the block and not its state
  (30_encoding.md R50; log 3). DESIGN CHOICE. -/
  rsp : Option Response
  /-- The MODEL's own: what the host will present on the port, the next first (30_encoding.md R45;
  70_reset_and_hazards.md R149; log 4). DESIGN CHOICE. -/
  port : List HostEvent
  deriving DecidableEq, Repr

/-- How a step stops. Both constructors are 93_implementation_defined.md U8: a model "treats a read of an absent value
as an error". No accepted command makes such a read in a state reached from reset (70_reset_and_hazards.md R142). -/
inductive Fault where
  /-- Raised by GADV and BUILD reading a generator register that holds no value. Safe: the model stops where the spec
  gives the read no value. -/
  | absentRegister (r : GenReg)
  /-- Raised by MAP and UNMAP reading a table entry that holds no value. Safe: as above. -/
  | absentMask
  deriving DecidableEq, Repr

/-- Why the model gives an instruction no meaning. Every command of the table has one, so nothing raises this. -/
inductive Refusal where
  /-- An instruction whose meaning is not written: raised by an arm of `exec` only. Safe: the model says nothing. -/
  | notModelled (mnemonic : String)
  deriving DecidableEq, Repr

/-- The outcome of a command. -/
abbrev Result := Host.Outcome State Fault Refusal

/-- The block right after reset (10_state.md R23; 70_reset_and_hazards.md R140): phase EMPTY, every other element
holding no value; nothing answered and nothing pending. -/
def State.reset : State where
  phase := .empty
  state := none
  shiftA := none
  shiftB := none
  shiftC := none
  masks := []
  rsp := none
  port := []

end Sys2Proof.Machine
end

