-- ==== Sys2Proof/Machine/Flags.lean ====
section
/-! DEFINITION. The block has no condition codes, carry, zero or overflow flags (10_state.md R18). What it has in their
place are three small codes: the phase, the response status and the cause of a rejection. This file holds them and the
66-bit response bundle. -/

namespace Sys2Proof.Machine

/-- The 2-bit code of a phase (10_state.md R17). -/
def Phase.code : Phase → BitVec 2
  | .empty => 0#2
  | .seeded => 1#2
  | .built => 2#2

/-- The 2-bit code of a status, `rsp_status` (30_encoding.md R50). -/
def Status.code : Status → BitVec 2
  | .ok => 0#2
  | .illegal => 1#2
  | .phase => 2#2

/-- The two causes of a rejection (60_exceptions.md R122, R123); no other exists (R124). -/
inductive Cause where
  /-- The opcode is reserved (60_exceptions.md R122). -/
  | illegal
  /-- The command is not accepted in the current phase (60_exceptions.md R123). -/
  | phase
  deriving DecidableEq, Repr

/-- The status a rejection answers with (60_exceptions.md R121 to R123). -/
def Cause.status : Cause → Status
  | .illegal => .illegal
  | .phase => .phase

/-- The response as one bundle: `rsp[1:0]` the status, `rsp[65:2]` the data (30_encoding.md R50). -/
def Response.toBundle (r : Response) : RspBundle := r.data ++ r.status.code

/-- The response a bundle stands for; status 3 stands for none (30_encoding.md R50; 93_implementation_defined.md U7). -/
def Response.ofBundle (rsp : RspBundle) : Option Response :=
  match rsp.extractLsb' 0 2 with
  | 0#2 => some ⟨.ok, rsp.extractLsb' 2 64⟩
  | 1#2 => some ⟨.illegal, rsp.extractLsb' 2 64⟩
  | 2#2 => some ⟨.phase, rsp.extractLsb' 2 64⟩
  | 3#2 => none

end Sys2Proof.Machine
end

