-- ==== Sys2Proof/Machine/Operands.lean ====
section
/-! DEFINITION. The operators on words and the one effective index of the block (00_scope.md R6; 20_memory.md R36;
41_table_build.md R80). -/

namespace Sys2Proof.Machine

/-- `shl64(v, n)`: logical left shift by any `n`, cut to 64 bits; 0 for `n >= 64` (00_scope.md R6). The amount is used
at full value, never modulo 64 (30_encoding.md R51; log 10). -/
def shl64 (v : Word) (n : Nat) : Word := if n < 64 then v <<< n else 0#64

/-- `shr64(v, n)`: logical right shift by any `n`, zero fill; 0 for `n >= 64` (00_scope.md R6; log 10). -/
def shr64 (v : Word) (n : Nat) : Word := if n < 64 then v >>> n else 0#64

/-- `1 << i` for `0 <= i <= 63`: the word with only bit `i` set (00_scope.md R6). -/
def bitWord (i : Round) : Word := 1#64 <<< i.val

/-- The round an entry belongs to, `k >> 1` (41_table_build.md R80; 20_memory.md R35). -/
def roundOf (k : MaskIndex) : Round := ⟨k.val >>> 1, by have := k.isLt; omega⟩

/-- `KEEP(k)`: every bit set except bit `k >> 1` (41_table_build.md R80). -/
def keep (k : MaskIndex) : Word := bitWord (roundOf k) ^^^ Config.mask64

/-- `b = (num & bit) >> i`, 0 or 1 (42_mixing_pipeline.md R96). -/
def stageBit (i : Round) (num : Word) : Word := (num &&& bitWord i) >>> i.val

/-- The selecting bit is the bit `i` of the entering word, as the word 0 or 1 (42_mixing_pipeline.md R96). -/
theorem stageBit_eq (i : Round) (num : Word) :
    stageBit i num = if num.getLsbD i.val then 1#64 else 0#64 := by
  apply BitVec.eq_of_getLsbD_eq
  intro j hj
  have hi := i.isLt
  simp only [stageBit, bitWord, BitVec.getLsbD_ushiftRight, BitVec.getLsbD_and,
    BitVec.getLsbD_shiftLeft, BitVec.getLsbD_one]
  by_cases h0 : j = 0
  · subst h0
    cases num.getLsbD i.val <;> simp [hi]
  · cases num.getLsbD i.val <;> simp [h0]

/-- The selecting bit is 0 or 1 (42_mixing_pipeline.md R109). -/
theorem stageBit_le_one (i : Round) (num : Word) : (stageBit i num).toNat ≤ 1 := by
  rw [stageBit_eq]
  split <;> decide

/-- `(i << 1) + b`: the entry stage `i` reads for the word entering it (20_memory.md R36). The bound is the rule's own:
no index outside the table can be formed. -/
def maskIndex (i : Round) (num : Word) : MaskIndex :=
  ⟨(i.val <<< 1) + (stageBit i num).toNat, by
    have := i.isLt
    have := stageBit_le_one i num
    simp only [Nat.shiftLeft_eq]
    omega⟩

end Sys2Proof.Machine
end

