-- ==== Sys2Proof/Machine/Ops.lean ====
section
/-! DEFINITION. The named operations every command is written over: the table's reads and writes, the register reads
and updates, the response, the rejection (the block's only exception) and the port. -/

namespace Sys2Proof.Machine

/-! ### The mask table (20_memory.md) -/

/-- `MemRead(k, 8)`: the word at index `k`, `none` where the entry holds no value (20_memory.md R32; 10_state.md R23).
An index that is not listed reads as absent: the definition of what an unlisted address holds (log 2). -/
def Memory.read : Memory → Nat → Option Word
  | [], _ => none
  | (a, v) :: m, k => if a = k then some v else Memory.read m k

/-- `MemWrite(k, 8, v)`: `masks[k] <- v`, keeping the cells in rising index order (20_memory.md R33). -/
def Memory.write : Memory → Nat → Word → Memory
  | [], k, v => [(k, v)]
  | (a, u) :: m, k, v =>
    if k < a then (k, v) :: (a, u) :: m
    else if k = a then (k, v) :: m
    else (a, u) :: Memory.write m k v

/-- The canonical form: every index is one of the 128 and the indices strictly rise (20_memory.md R30; log 2). -/
def Memory.wf : Memory → Bool
  | [] => true
  | (a, _) :: m => decide (a < 128) && m.all (fun cell => decide (a < cell.1)) && Memory.wf m

/-- The memory in which all 128 entries hold the words of `t`, and nothing else is listed. -/
def Memory.ofTable (t : Table) : Memory := (List.finRange 128).map fun k => (k.val, t[k])

/-! ### Register and table updates -/

/-- `state <- w` (10_state.md R10). -/
def State.setGen (w : Word) (s : State) : State := { s with state := some w }

/-- The four writes of GLOAD to the generator's registers (40_generator.md R66). -/
def State.loadGen (x : Word) (a b c : Amount) (s : State) : State :=
  { s with state := some x, shiftA := some a, shiftB := some b, shiftC := some c }

/-- The table's content after a command's writes (20_memory.md R33). -/
def State.setMasks (m : Memory) (s : State) : State := { s with masks := m }

/-- `phase <- p` (10_state.md R17). -/
def State.setPhase (p : Phase) (s : State) : State := { s with phase := p }

/-- `respond(status, data)`: the command's answer on the response port (00_scope.md R7; 30_encoding.md R50). -/
def State.respond (status : Status) (data : Word) (s : State) : State := { s with rsp := some ⟨status, data⟩ }

/-- Reads a generator register; one that holds no value is an error: "`fault` if ever read", "must not substitute 0"
(93_implementation_defined.md U8; 92_eei_decisions.md D7). No command accepted in a reachable state meets the error
(70_reset_and_hazards.md R142). -/
def readReg {α : Type} (r : GenReg) (v : Option α) (body : α → Result) : Result :=
  match v with
  | some x => body x
  | none => .fault (.absentRegister r)

/-- Reads the whole generator, `state` first and then the shift registers (40_generator.md R65, R70). -/
def readGen (s : State) (body : Word → Amount → Amount → Amount → Result) : Result :=
  readReg .state s.state fun w =>
    readReg .shiftA s.shiftA fun a =>
      readReg .shiftB s.shiftB fun b =>
        readReg .shiftC s.shiftC fun c => body w a b c

/-! ### Taking the exception, and returning from it

The block's only exception is the rejection. It saves nothing, goes nowhere and enters no mode, so there is nothing to
return from (60_exceptions.md R121, R127): the next command simply follows. -/

/-- `raise Reject(cause)`: no state element is written and the response is `(cause, 0)` (60_exceptions.md R121). -/
def reject (cause : Cause) (s : State) : Result := .next (s.respond cause.status 0#64)

/-- The phase check that opens every defined command: `if phase != p then raise Reject(PHASE)` (60_exceptions.md
R123). -/
def requirePhase (p : Phase) (s : State) (body : Result) : Result :=
  if s.phase = p then body else reject .phase s

/-! ### The port: commands and reset -/

/-- What remains of the host's input once the first event is taken (70_reset_and_hazards.md R146; log 4). -/
def State.setPort (es : List HostEvent) (s : State) : State := { s with port := es }

/-- Reset: the state of R23, whatever the block held (70_reset_and_hazards.md R140). What the host will present next is
the host's and is kept (log 5). -/
def State.applyReset (s : State) : State := State.reset.setPort s.port

/-- The host issues these commands next, each assembled by the encoder, and nothing after them (70_reset_and_hazards.md
R149). -/
def State.issue (cmds : List Instr) (s : State) : State := s.setPort (cmds.map fun i => .command (encode i))

end Sys2Proof.Machine
end

