-- ==== Sys2Proof/Machine/Generator.lean ====
section
/-! DEFINITION. The bit-stream generator: `ADV`, GLOAD and GADV (40_generator.md). -/

namespace Sys2Proof.Machine

/-- `ADV(s, a, b, c)`: three self-XOR steps, left by `a`, right by `b`, left by `c`, each on the result of the one
before (40_generator.md R65). -/
def adv (s : Word) (a b c : Amount) : Word :=
  let t1 := s ^^^ shl64 s a.toNat
  let t2 := t1 ^^^ shr64 t1 b.toNat
  t2 ^^^ shl64 t2 c.toNat

/-- `w_n`: the word the `n`-th `advance` step returns, counting from 0, from the generator state `s` (40_generator.md
R73). -/
def genWord (s : Word) (a b c : Amount) : Nat → Word
  | 0 => adv s a b c
  | n + 1 => adv (genWord s a b c n) a b c

/-- GLOAD: create the generator from a seed and a triplet (40_generator.md R66). Neither is checked (60_exceptions.md
R120). -/
def execGload (x : Word) (a b c : Amount) (s : State) : Result :=
  requirePhase .empty s
    (.next (((s.loadGen x a b c).setPhase .seeded).respond .ok 0#64))

/-- GADV: one `advance` step, answering the new state (40_generator.md R70). -/
def execGadv (s : State) : Result :=
  requirePhase .seeded s
    (readGen s fun w a b c =>
      .next ((s.setGen (adv w a b c)).respond .ok (adv w a b c)))

end Sys2Proof.Machine
end

