-- ==== Sys2Proof/Machine/Pipeline.lean ====
section
/-! DEFINITION. The 64-stage bit-mixing pipeline: `STAGE`, `MAPF`, `UNMAPF`, MAP and UNMAP (42_mixing_pipeline.md). -/

namespace Sys2Proof.Machine

/-- The two branches of `STAGE(i, num)`, given the mask it selected (42_mixing_pipeline.md R96). The branching form is
the definition (R103). -/
def stageXor (i : Round) (selected num : Word) : Word :=
  if stageBit i num = 0#64 then
    num ^^^ (Config.mask64 ^^^ (selected ||| (bitWord i ^^^ (num &&& bitWord i))))
  else
    num ^^^ (Config.mask64 ^^^ (selected ||| (num &&& bitWord i)))

/-! ### The pure transforms on a whole table (42_mixing_pipeline.md R97) -/

/-- `STAGE(i, num)` reading the table `t` (42_mixing_pipeline.md R96, R97). -/
def stage (t : Table) (i : Round) (num : Word) : Word := stageXor i t[maskIndex i num] num

/-- The stages of the given rounds, in order, on a word. -/
def stages (t : Table) (is : List Round) (x : Word) : Word := is.foldl (fun num i => stage t i num) x

/-- Rounds 0 to 63 ascending (42_mixing_pipeline.md R95). -/
def rounds : List Round := List.finRange 64

/-- `MAPF(m, x)`: stages 0 to 63 ascending (42_mixing_pipeline.md R97). -/
def mapF (t : Table) (x : Word) : Word := stages t rounds x

/-- `UNMAPF(m, x)`: stages 63 down to 0 (42_mixing_pipeline.md R97). -/
def unmapF (t : Table) (x : Word) : Word := stages t rounds.reverse x

/-- The entries read by the stages of the given rounds on a word, in order: stage `i` reads entry `2i + b_i`, `b_i` being
bit `i` of the word entering it (42_mixing_pipeline.md R98, R100; the masks `sel_i` of R108). -/
def readIndices (t : Table) : List Round → Word → List MaskIndex
  | [], _ => []
  | i :: is, num => maskIndex i num :: readIndices t is (stage t i num)

/-! ### The stages on the block's own table -/

/-- `STAGE(i, num)` reading `masks`; `none` when the entry it reads holds no value (42_mixing_pipeline.md R96;
93_implementation_defined.md U8). -/
def stageRead (m : Memory) (i : Round) (num : Word) : Option Word :=
  match Memory.read m (maskIndex i num).val with
  | some selected => some (stageXor i selected num)
  | none => none

/-- The loop of MAP and UNMAP over the given rounds (42_mixing_pipeline.md R98, R100). -/
def runStages (m : Memory) : List Round → Word → Option Word
  | [], num => some num
  | i :: is, num =>
    match stageRead m i num with
    | some num' => runStages m is num'
    | none => none

/-- Answers a transform's result; a read of an entry that holds no value is an error (93_implementation_defined.md
U8). -/
def respondWord (result : Option Word) (s : State) : Result :=
  match result with
  | some num => .next (s.respond .ok num)
  | none => .fault .absentMask

/-- MAP: the forward transform; no state element is written (42_mixing_pipeline.md R98). -/
def execMap (x : Word) (s : State) : Result :=
  requirePhase .built s (respondWord (runStages s.masks rounds x) s)

/-- UNMAP: the same stages in descending order; no state element is written (42_mixing_pipeline.md R100). -/
def execUnmap (x : Word) (s : State) : Result :=
  requirePhase .built s (respondWord (runStages s.masks rounds.reverse x) s)

end Sys2Proof.Machine
end

