-- ==== Sys2Proof/Machine/Reserved.lean ====
section
/-! DEFINITION. The reserved opcodes: rejected with ILLEGAL in every phase, whatever the other 160 bits hold
(30_encoding.md R52; 60_exceptions.md R122). The opcode alone decides; the phase is not consulted (R125). -/

namespace Sys2Proof.Machine

/-- Opcode 0 (60_exceptions.md R122). -/
def execReserved0 (s : State) : Result := reject .illegal s

/-- Opcode 6 (60_exceptions.md R122). -/
def execReserved6 (s : State) : Result := reject .illegal s

/-- Opcode 7 (60_exceptions.md R122). -/
def execReserved7 (s : State) : Result := reject .illegal s

end Sys2Proof.Machine
end

