-- ==== Sys2Proof/Machine/TableBuild.lean ====
section
/-! DEFINITION. Construction of the mask table: `TABLE` and BUILD (41_table_build.md). -/

namespace Sys2Proof.Machine

/-- `TABLE(s, a, b, c)`, its 128 masks: entry `k` is the `k`-th word drawn with bit `k >> 1` cleared (41_table_build.md
R81, in the form "`m[k] = w_k & KEEP(k)`"). -/
def table (s : Word) (a b c : Amount) : Table := Vector.ofFn fun k => genWord s a b c k.val &&& keep k

/-- `TABLE(s, a, b, c)`, the final generator state: the last word drawn, `w_127` (41_table_build.md R81). -/
def tableState (s : Word) (a b c : Amount) : Word := genWord s a b c 127

/-- BUILD's loop over the given indices: draw a word into the generator register, write it masked to the entry
(41_table_build.md R82). Answers the register and the table. -/
def buildLoop (a b c : Amount) : List MaskIndex → Word → Memory → Word × Memory
  | [], w, m => (w, m)
  | k :: ks, w, m => buildLoop a b c ks (adv w a b c) (Memory.write m k.val (adv w a b c &&& keep k))

/-- BUILD: draw 128 words, in ascending index order, and fill the table; one atomic command (41_table_build.md R82,
R83). -/
def execBuild (s : State) : Result :=
  requirePhase .seeded s
    (readGen s fun w a b c =>
      let done := buildLoop a b c (List.finRange 128) w s.masks
      .next ((((s.setGen done.1).setMasks done.2).setPhase .built).respond .ok 0#64))

end Sys2Proof.Machine
end

