-- ==== Sys2Proof/Machine/Dispatch.lean ====
section
/-! DEFINITION. One arm per command: its meaning. -/

namespace Sys2Proof.Machine

def exec (i : Instr) (s : State) : Host.Outcome State Fault Refusal :=
  match i with
  | .gload x a b c => Sys2Proof.Machine.execGload x a b c s
  | .gadv => Sys2Proof.Machine.execGadv s
  | .build => Sys2Proof.Machine.execBuild s
  | .map x => Sys2Proof.Machine.execMap x s
  | .unmap x => Sys2Proof.Machine.execUnmap x s
  | .reserved0 => Sys2Proof.Machine.execReserved0 s
  | .reserved6 => Sys2Proof.Machine.execReserved6 s
  | .reserved7 => Sys2Proof.Machine.execReserved7 s

end Sys2Proof.Machine
end

