-- ==== Sys2Proof/Machine/Step.lean ====
section
/-! DEFINITION. One step of the block: it takes the next thing the host presents. There is no program counter and no
fetch from memory (10_state.md R19; 20_memory.md R42). -/

namespace Sys2Proof.Machine

/-- A step: idle when the host presents nothing (60_exceptions.md R129), a reset (70_reset_and_hazards.md R140), or one
command, decoded and executed as one indivisible transition (00_scope.md R8; 30_encoding.md R45, R49). -/
def step (s : State) : Host.Outcome State Fault Refusal :=
  match s.port with
  | [] => .next s
  | .reset :: rest => .next (s.setPort rest).applyReset
  | .command cmd :: rest => exec (decode cmd) (s.setPort rest)

/-- The state in which the host presents the command with the bits of `w` next, before anything else it would present
(log 4). -/
def State.withFetchWord (s : State) (nbits w : Nat) : State :=
  s.setPort (.command (tableBundle nbits w) :: s.port)

end Sys2Proof.Machine
end

