-- ==== Sys2Proof/Machine/Assembler.lean ====
section
/-! DEFINITION. The assembler of 30_encoding.md R54 and R55: the text of a line, the commands it stands for, and the
bundles they assemble to. It is outside the block; the block sees the bundles only. -/

namespace Sys2Proof.Machine

/-! ### Assembling a line -/

/-- The commands of a source line, its literals cut to their fields; NEW is GLOAD, then BUILD (30_encoding.md R55). -/
def expandLine : AsmLine → List Instr
  | .gload seed a b c => [.gload (BitVec.ofNat 64 seed) (BitVec.ofNat 32 a) (BitVec.ofNat 32 b) (BitVec.ofNat 32 c)]
  | .gadv => [.gadv]
  | .build => [.build]
  | .map x => [.map (BitVec.ofNat 64 x)]
  | .unmap x => [.unmap (BitVec.ofNat 64 x)]
  | .new seed a b c =>
    [.gload (BitVec.ofNat 64 seed) (BitVec.ofNat 32 a) (BitVec.ofNat 32 b) (BitVec.ofNat 32 c), .build]

/-- The commands of a source line, `none` where the assembler refuses it (30_encoding.md R54). -/
def assembleLine (line : AsmLine) : Option (List Instr) :=
  if line.wellFormed then some (expandLine line) else none

/-- The commands of a program, one line after another; one refused line refuses the program. -/
def assembleLines : List AsmLine → Option (List Instr)
  | [] => some []
  | line :: rest =>
    match assembleLine line, assembleLines rest with
    | some cmds, some more => some (cmds ++ more)
    | some _, none => none
    | none, _ => none

/-! ### Reading the text (30_encoding.md R54; 00_scope.md R5 for literals)

How blanks are skipped, which letter case is read and where `_` may stand is the model's own (log 14). -/

/-- A blank: a space or a tab. -/
def isBlank (ch : Char) : Bool := ch == ' ' || ch == '\t'

/-- The text without the blanks at its two ends. -/
def trim (cs : List Char) : List Char := ((cs.dropWhile isBlank).reverse.dropWhile isBlank).reverse

/-- The text cut at every occurrence of `sep`. -/
def cutAt (sep : Char) : List Char → List (List Char)
  | [] => [[]]
  | ch :: cs =>
    match cutAt sep cs with
    | [] => [[ch]]
    | part :: parts => if ch == sep then [] :: part :: parts else (ch :: part) :: parts

/-- The value of a decimal or hexadecimal digit. -/
def digitValue (ch : Char) : Option Nat :=
  if '0'.toNat ≤ ch.toNat && ch.toNat ≤ '9'.toNat then some (ch.toNat - '0'.toNat)
  else if 'A'.toNat ≤ ch.toNat && ch.toNat ≤ 'F'.toNat then some (ch.toNat - 'A'.toNat + 10)
  else if 'a'.toNat ≤ ch.toNat && ch.toNat ≤ 'f'.toNat then some (ch.toNat - 'a'.toNat + 10)
  else none

/-- The number the digits spell in the base, after `acc`. -/
def digitsValue (base : Nat) : List Char → Nat → Option Nat
  | [], acc => some acc
  | ch :: cs, acc =>
    match digitValue ch with
    | some d => if d < base then digitsValue base cs (acc * base + d) else none
    | none => none

/-- A literal: `0x` and hexadecimal digits with optional `_` separators, or decimal digits (00_scope.md R5). DESIGN CHOICE:
R5 does not say where a `_` may stand; every `_` after `0x` is dropped, a leading, trailing or doubled one too (log 14). -/
def literal (cs : List Char) : Option Nat :=
  match cs with
  | '0' :: 'x' :: ds =>
    match ds.filter (· != '_') with
    | [] => none
    | d :: more => digitsValue 16 (d :: more) 0
  | [] => none
  | d :: ds => digitsValue 10 (d :: ds) 0

/-- Every literal of an operand list, `none` where one is no literal. -/
def literals : List (List Char) → Option (List Nat)
  | [] => some []
  | part :: parts =>
    match literal (trim part), literals parts with
    | some n, some ns => some (n :: ns)
    | some _, none => none
    | none, _ => none

/-- The operands after a mnemonic, separated by commas (30_encoding.md R54). -/
def operands (cs : List Char) : Option (List Nat) :=
  match trim cs with
  | [] => some []
  | ch :: more => literals (cutAt ',' (ch :: more))

/-- The source line of a mnemonic and its operands: the table of 30_encoding.md R54, and NEW of R55. -/
def lineOf (mnemonic : List Char) (ops : List Nat) : Option AsmLine :=
  if mnemonic = ['G', 'L', 'O', 'A', 'D'] then
    match ops with
    | [seed, a, b, c] => some (.gload seed a b c)
    | _ => none
  else if mnemonic = ['G', 'A', 'D', 'V'] then
    match ops with
    | [] => some .gadv
    | _ => none
  else if mnemonic = ['B', 'U', 'I', 'L', 'D'] then
    match ops with
    | [] => some .build
    | _ => none
  else if mnemonic = ['M', 'A', 'P'] then
    match ops with
    | [x] => some (.map x)
    | _ => none
  else if mnemonic = ['U', 'N', 'M', 'A', 'P'] then
    match ops with
    | [x] => some (.unmap x)
    | _ => none
  else if mnemonic = ['N', 'E', 'W'] then
    match ops with
    | [seed, a, b, c] => some (.new seed a b c)
    | _ => none
  else none

/-- One line of text: its command if it has one; `;` starts a comment; `none` where the line is no syntax of R54. -/
def readLine (text : List Char) : Option (List AsmLine) :=
  match trim (text.takeWhile (· != ';')) with
  | [] => some []
  | ch :: more =>
    let code := ch :: more
    match operands (code.dropWhile (fun c => !isBlank c)) with
    | some ops =>
      match lineOf (code.takeWhile (fun c => !isBlank c)) ops with
      | some line => some [line]
      | none => none
    | none => none

/-- Every line of the cut text. -/
def readLines : List (List Char) → Option (List AsmLine)
  | [] => some []
  | text :: texts =>
    match readLine text, readLines texts with
    | some line, some lines => some (line ++ lines)
    | some _, none => none
    | none, _ => none

/-- The commands of a program text, one command a line (30_encoding.md R54). -/
def assemble (text : List Char) : Option (List Instr) :=
  match readLines (cutAt '\n' text) with
  | some lines => assembleLines lines
  | none => none

end Sys2Proof.Machine
end

