-- ==== Sys2Proof/Safety.lean ====
section
/-! DEFINITION. What the statements about the block are made of: sequences of commands, what a table holds, and the
invariant of the lifecycle. -/

namespace Sys2Proof.Machine

/-- The commands one after another, stopping at the first that does not answer (20_memory.md R39: commands take effect
in the order in which they are accepted). -/
def execAll : List Instr → State → Result
  | [], s => .next s
  | i :: is, s =>
    match exec i s with
    | .next t => execAll is t
    | .fault f => .fault f
    | .refused r => .refused r

/-- `n` steps of the machine (70_reset_and_hazards.md R149): `Host.Core.run` of this machine (`run_eq_core_run`). -/
def run : Nat → State → Result
  | 0, s => .next s
  | n + 1, s =>
    match step s with
    | .next t => run n t
    | .fault f => .fault f
    | .refused r => .refused r

/-- All 128 entries hold the words of `t`. -/
def Memory.holds (m : Memory) (t : Table) : Prop := ∀ k : MaskIndex, Memory.read m k.val = some t[k]

/-- The generator's four registers hold these values. -/
def State.holdsGen (s : State) (w : Word) (a b c : Amount) : Prop :=
  s.state = some w ∧ s.shiftA = some a ∧ s.shiftB = some b ∧ s.shiftC = some c

/-- The two commands a built block takes (42_mixing_pipeline.md R98, R100). -/
def isTransform : Instr → Bool
  | .gload _ _ _ _ => false
  | .gadv => false
  | .build => false
  | .map _ => true
  | .unmap _ => true
  | .reserved0 => false
  | .reserved6 => false
  | .reserved7 => false

/-- The invariant of the lifecycle (10_state.md R15, R17, R23; 70_reset_and_hazards.md R142): which elements hold a
value in which phase, and what a built table holds. -/
structure State.Inv (s : State) : Prop where
  /-- The table keeps its canonical form. -/
  masksWf : Memory.wf s.masks = true
  /-- In EMPTY the generator holds no value. -/
  generatorAbsent : s.phase = .empty → s.state = none ∧ s.shiftA = none ∧ s.shiftB = none ∧ s.shiftC = none
  /-- In SEEDED and BUILT the generator holds values. -/
  generatorPresent : s.phase ≠ .empty → ∃ w a b c, s.holdsGen w a b c
  /-- Before BUILD no entry of the table holds a value. -/
  tableAbsent : s.phase ≠ .built → s.masks = []
  /-- After BUILD the table is one the construction computes, and `state` keeps the last word drawn. -/
  tableBuilt : s.phase = .built →
    ∃ w a b c, s.masks = Memory.ofTable (table w a b c) ∧ s.holdsGen (tableState w a b c) a b c

/-- The block can take its next step: no read of an absent value, no refusal. -/
def State.Answers (s : State) : Prop := ∃ t, step s = .next t

end Sys2Proof.Machine
end

