-- ==== Sys2Proof/Certificates/Slice0/Obligations.lean ====
section
/-! DEFINITION. The statements about the block, each a definition of type `Prop`. They come from the numbered rules of
the spec, file by file; a docstring names the rule. -/

open Sys2Proof Sys2Proof.Machine

/-! ### The command bundle (30_encoding.md) -/

/-- R46: the layout of the bundle, as an integer and bit by bit, and what each field is an operand of. -/
def Obligations.BundleFieldsAtTheirBits : Prop :=
  (∀ (op : BitVec 3) (x : Word) (a b c : Amount),
    (bundleOf op x a b c).toNat =
      op.toNat + x.toNat * 2 ^ 3 + a.toNat * 2 ^ 67 + b.toNat * 2 ^ 99 + c.toNat * 2 ^ 131) ∧
  (∀ cmd : Bundle,
    (∀ j < 3, (cmdOp cmd).getLsbD j = cmd.getLsbD j) ∧
    (∀ j < 64, (cmdX cmd).getLsbD j = cmd.getLsbD (3 + j)) ∧
    (∀ j < 32, (cmdA cmd).getLsbD j = cmd.getLsbD (67 + j)) ∧
    (∀ j < 32, (cmdB cmd).getLsbD j = cmd.getLsbD (99 + j)) ∧
    (∀ j < 32, (cmdC cmd).getLsbD j = cmd.getLsbD (131 + j)) ∧
    bundleOf (cmdOp cmd) (cmdX cmd) (cmdA cmd) (cmdB cmd) (cmdC cmd) = cmd ∧
    (cmdOp cmd = 1#3 → decode cmd = .gload (cmdX cmd) (cmdA cmd) (cmdB cmd) (cmdC cmd)) ∧
    (cmdOp cmd = 4#3 → decode cmd = .map (cmdX cmd)) ∧
    (cmdOp cmd = 5#3 → decode cmd = .unmap (cmdX cmd)))

/-- Decode and encode agree, for every command and every operand; the encoder's bundle is the one with nothing in the
ignored fields. -/
def Obligations.DecodeOfEncode : Prop :=
  ∀ i : Instr, decode (encode i) = i ∧ cmdOp (encode i) = i.opcode ∧ clearIgnored (encode i) = encode i

/-- R48: the opcode map over the bundle read as an integer, the format of each command, and the rejection of the three
reserved opcodes. -/
def Obligations.OpcodeMapSelectsCommand : Prop :=
  ∀ cmd : Bundle,
    (cmd.toNat % 8 = 0 → decode cmd = .reserved0) ∧
    (cmd.toNat % 8 = 1 → decode cmd = .gload (BitVec.ofNat 64 (cmd.toNat / 2 ^ 3)) (BitVec.ofNat 32 (cmd.toNat / 2 ^ 67))
      (BitVec.ofNat 32 (cmd.toNat / 2 ^ 99)) (BitVec.ofNat 32 (cmd.toNat / 2 ^ 131)) ∧ (decode cmd).format = .g) ∧
    (cmd.toNat % 8 = 2 → decode cmd = .gadv ∧ (decode cmd).format = .n) ∧
    (cmd.toNat % 8 = 3 → decode cmd = .build ∧ (decode cmd).format = .n) ∧
    (cmd.toNat % 8 = 4 → decode cmd = .map (BitVec.ofNat 64 (cmd.toNat / 2 ^ 3)) ∧ (decode cmd).format = .x) ∧
    (cmd.toNat % 8 = 5 → decode cmd = .unmap (BitVec.ofNat 64 (cmd.toNat / 2 ^ 3)) ∧ (decode cmd).format = .x) ∧
    (cmd.toNat % 8 = 6 → decode cmd = .reserved6) ∧
    (cmd.toNat % 8 = 7 → decode cmd = .reserved7) ∧
    (cmd.toNat % 8 = 0 ∨ cmd.toNat % 8 = 6 ∨ cmd.toNat % 8 = 7 →
      ∀ s : State, exec (decode cmd) s = .next { s with rsp := some ⟨.illegal, 0#64⟩ })

/-- R47: bundles that agree in the fields their format uses behave alike, in decoding and in the machine's step; the
assembler's bundle is zero in the other fields. -/
def Obligations.IgnoredFieldsHaveNoEffect : Prop :=
  (∀ cmd cmd' : Bundle, cmdOp cmd = cmdOp cmd' →
    (cmdOp cmd = 1#3 → cmdX cmd = cmdX cmd' ∧ cmdA cmd = cmdA cmd' ∧ cmdB cmd = cmdB cmd' ∧ cmdC cmd = cmdC cmd') →
    (cmdOp cmd = 4#3 ∨ cmdOp cmd = 5#3 → cmdX cmd = cmdX cmd') →
    decode cmd = decode cmd' ∧
      ∀ (s : State) (rest : List HostEvent),
        step { s with port := .command cmd :: rest } = step { s with port := .command cmd' :: rest }) ∧
  (∀ cmd : Bundle, encode (decode cmd) = clearIgnored cmd ∧
    (cmdOp cmd = 1#3 → encode (decode cmd) = cmd) ∧
    (cmdOp cmd = 2#3 → (encode (decode cmd)).toNat = 2) ∧
    (cmdOp cmd = 3#3 → (encode (decode cmd)).toNat = 3) ∧
    (cmdOp cmd = 4#3 → (encode (decode cmd)).toNat = 4 + (cmdX cmd).toNat * 8) ∧
    (cmdOp cmd = 5#3 → (encode (decode cmd)).toNat = 5 + (cmdX cmd).toNat * 8))

/-- R122: a bundle with a reserved opcode is rejected with ILLEGAL in any phase, whatever its other bits; and the
meanings of the three reserved commands. -/
def Obligations.ReservedOpcodesAreIllegal : Prop :=
  (∀ (s : State) (cmd : Bundle) (rest : List HostEvent), s.port = .command cmd :: rest →
    cmdOp cmd = 0#3 ∨ cmdOp cmd = 6#3 ∨ cmdOp cmd = 7#3 →
    step s = .next { s with port := rest, rsp := some ⟨.illegal, 0#64⟩ }) ∧
  (∀ s : State,
    exec .reserved0 s = .next { s with rsp := some ⟨.illegal, 0#64⟩ } ∧
    exec .reserved6 s = .next { s with rsp := some ⟨.illegal, 0#64⟩ } ∧
    exec .reserved7 s = .next { s with rsp := some ⟨.illegal, 0#64⟩ }) ∧
  Status.code .illegal = 1#2

/-- The worked bundles of 30_encoding.md section 8 and 95_test_vectors.md section 6 decode to the commands they stand
for. -/
def Obligations.WorkedBundlesDecode : Prop :=
  decode 0x8800000038000000680000000000000009#163 = .gload 1#64 13#32 7#32 17#32 ∧
  decode 0x2#163 = .gadv ∧ decode 0x3#163 = .build ∧ decode 0xC#163 = .map 1#64 ∧
  decode 0x47CB2AAA15BDECC3D#163 = .unmap 0x8F9655542B7BD987#64 ∧
  decode 0x0#163 = .reserved0 ∧ decode 0x880000003800000068000000000000000E#163 = .reserved6 ∧
  decode 0x7FFFFFFFFFFFFFFFFFFFFFFFFFFFFFFFFFFFFFFFF#163 = .reserved7

/-! ### The response (30_encoding.md) -/

/-- R50: every command is answered, once, with a status and a data word as the table says; the bundle's layout; and the
response is not state: no command's outcome depends on the one before it. -/
def Obligations.EveryCommandIsAnswered : Prop :=
  (∀ (s : State) (i : Instr), s.Inv →
    ∃ (t : State) (st : Status) (d : Word), exec i s = .next t ∧ t.rsp = some ⟨st, d⟩ ∧
      (st ≠ .ok → d = 0#64 ∧ t = { s with rsp := some ⟨st, 0#64⟩ }) ∧
      (st = .illegal ↔ i = .reserved0 ∨ i = .reserved6 ∨ i = .reserved7) ∧
      (st = .ok → (∀ x a b c, i = .gload x a b c → d = 0#64) ∧ (i = .build → d = 0#64) ∧
        (i = .gadv → t.state = some d) ∧
        (∀ tbl x, Memory.holds s.masks tbl → i = .map x → d = mapF tbl x) ∧
        (∀ tbl x, Memory.holds s.masks tbl → i = .unmap x → d = unmapF tbl x)) ∧
      (∀ r : Option Response, exec i { s with rsp := r } = .next t)) ∧
  (∀ r : Response, r.toBundle.toNat = r.status.code.toNat + 4 * r.data.toNat ∧
    Response.ofBundle r.toBundle = some r) ∧
  (∀ rsp : RspBundle, Response.ofBundle rsp = none ↔ rsp.toNat % 4 = 3) ∧
  Status.code .ok = 0#2 ∧ Status.code .illegal = 1#2 ∧ Status.code .phase = 2#2

/-! ### The step, idling and reset -/

/-- A step on a presented command is `exec` of what the decoder reads, with the port moved on; nothing `exec` does
touches what the host presents next, and neither does a reset. The host's own word, presented first, is executed first.
The port is the model's choice (logs 4 and 5). -/
def Obligations.StepRunsDecodedCommand : Prop :=
  (∀ (s : State) (cmd : Bundle) (rest : List HostEvent), s.port = .command cmd :: rest →
    step s = exec (decode cmd) { s with port := rest } ∧ ∀ t, step s = .next t → t.port = rest) ∧
  (∀ (s : State) (nbits w : Nat),
    step (s.withFetchWord nbits w) = exec (decode (tableBundle nbits w)) s ∧
      decodeTableWord nbits w = some (decode (tableBundle nbits w))) ∧
  (∀ (s : State) (rest : List HostEvent), s.port = .reset :: rest →
    ∃ t, step s = .next t ∧ t.port = rest ∧ t.rsp = none)

/-- 60_exceptions.md section 7: idling changes no state. -/
def Obligations.IdleStepChangesNothing : Prop :=
  ∀ s : State, s.port = [] → step s = .next s

/-- R140: reset, whatever the block held, ends in phase EMPTY with every other element holding no value; and no command
leads back from BUILT or to EMPTY, or builds a second table. -/
def Obligations.ResetEmptiesTheBlock : Prop :=
  (∀ (s : State) (rest : List HostEvent), s.port = .reset :: rest →
    ∃ t, step s = .next t ∧ t.phase = .empty ∧ t.state = none ∧ t.shiftA = none ∧ t.shiftB = none ∧ t.shiftC = none ∧
      ∀ k, Memory.read t.masks k = none) ∧
  (∀ (i : Instr) (s t : State), exec i s = .next t →
    (s.phase ≠ .empty → t.phase ≠ .empty) ∧ (s.phase = .built → t.phase = .built ∧ t.masks = s.masks))

/-- R23: the reset values; only `phase` has one, and "holds no value" is absent, not zero. What would read an absent value
is rejected in phase EMPTY, and no sequence of commands and resets reads one. -/
def Obligations.ResetHoldsNoValue : Prop :=
  State.reset.phase = .empty ∧ State.reset.phase.code = 0#2 ∧ State.reset.state = none ∧ State.reset.shiftA = none ∧
  State.reset.shiftB = none ∧ State.reset.shiftC = none ∧ (∀ k, Memory.read State.reset.masks k = none) ∧
  (∀ (i : Instr), i = .gadv ∨ i = .build ∨ isTransform i = true → ∀ s : State, s.phase = .empty →
    exec i s = .next { s with rsp := some ⟨.phase, 0#64⟩ }) ∧
  ∀ (n : Nat) (events : List HostEvent), ∃ t, run n { State.reset with port := events } = .next t

/-! ### The generator (40_generator.md) -/

/-- R66: GLOAD, accepted in EMPTY for every seed and triplet, rejected in every other phase with nothing written; the
generator's first word is `ADV` of the seed. -/
def Obligations.GloadLoadsGenerator : Prop :=
  (∀ (s : State) (x : Word) (a b c : Amount), s.phase = .empty →
    exec (.gload x a b c) s =
      .next { s with state := some x, shiftA := some a, shiftB := some b, shiftC := some c, phase := .seeded,
                     rsp := some ⟨.ok, 0#64⟩ }) ∧
  (∀ (s : State) (x : Word) (a b c : Amount), s.phase ≠ .empty →
    exec (.gload x a b c) s = .next { s with rsp := some ⟨.phase, 0#64⟩ }) ∧
  (∀ (s : State) (x : Word) (a b c : Amount), s.phase = .empty →
    ∃ t u, exec (.gload x a b c) s = .next t ∧ exec .gadv t = .next u ∧ u.rsp = some ⟨.ok, adv x a b c⟩) ∧
  (∀ (x : Word) (a b c : Amount), cmdOp (encode (.gload x a b c)) = 1#3 ∧ (Instr.gload x a b c).format = .g)

/-- R70: GADV, one `advance` step in SEEDED, rejected in every other phase with `state` unchanged; BUILD after it builds the
table of a generator seeded with the new word. -/
def Obligations.GadvAdvancesGenerator : Prop :=
  (∀ (s : State) (w : Word) (a b c : Amount), s.phase = .seeded → s.holdsGen w a b c →
    exec .gadv s = .next { s with state := some (adv w a b c), rsp := some ⟨.ok, adv w a b c⟩ }) ∧
  (∀ s : State, s.phase ≠ .seeded → exec .gadv s = .next { s with rsp := some ⟨.phase, 0#64⟩ }) ∧
  (∀ (s : State) (w : Word) (a b c : Amount), s.phase = .seeded → s.holdsGen w a b c →
    ∃ t u, exec .gadv s = .next t ∧ exec .build t = .next u ∧ Memory.holds u.masks (table (adv w a b c) a b c)) ∧
  cmdOp (encode .gadv) = 2#3 ∧ Instr.format .gadv = .n ∧ adv 1#64 13#32 7#32 17#32 = 0x40822041#64

/-- R65: `ADV` on the numbers themselves, for every 32-bit amount; and the step on the block stores and answers that same
word. -/
def Obligations.AdvIsThreeXorShifts : Prop :=
  (∀ (s : Word) (a b c : Amount),
    let t1 := s.toNat ^^^ (s.toNat * 2 ^ a.toNat % 2 ^ 64)
    let t2 := t1 ^^^ (t1 / 2 ^ b.toNat)
    (adv s a b c).toNat = t2 ^^^ (t2 * 2 ^ c.toNat % 2 ^ 64)) ∧
  (∀ (st : State) (s : Word) (a b c : Amount), st.phase = .seeded → st.holdsGen s a b c →
    ∃ t, exec .gadv st = .next t ∧ t.state = some (adv s a b c) ∧ t.rsp = some ⟨.ok, adv s a b c⟩)

/-- R71: a shift of 64 or more does nothing, a shift of 0 clears the word and every later one. -/
def Obligations.ShiftAmountCorners : Prop :=
  (∀ (t : Word) (n : Nat), 64 ≤ n → t ^^^ shl64 t n = t ∧ t ^^^ shr64 t n = t) ∧
  (∀ t : Word, t ^^^ shl64 t 0 = 0#64 ∧ t ^^^ shr64 t 0 = 0#64) ∧
  (∀ (s : Word) (a b c : Amount), a = 0#32 ∨ b = 0#32 ∨ c = 0#32 → ∀ n, genWord s a b c n = 0#64) ∧
  adv 5#64 64#32 7#32 17#32 = 0xA0005#64 ∧ adv 5#64 13#32 7#32 100#32 = 0xA145#64 ∧
  adv 5#64 0#32 7#32 17#32 = 0#64 ∧ adv 5#64 13#32 0#32 17#32 = 0#64

/-- R72: zero is a fixed point, for every triplet; a zero seed is accepted, every GADV answers 0, BUILD writes 128 zero
words, and the resulting `map` is still a bijection. -/
def Obligations.ZeroSeedIsFixedPoint : Prop :=
  (∀ a b c : Amount, adv 0#64 a b c = 0#64) ∧
  (∀ (s : State) (a b c : Amount), s.phase = .empty →
    ∃ t, exec (.gload 0#64 a b c) s = .next t ∧ t.rsp = some ⟨.ok, 0#64⟩ ∧
      (∀ n, ∃ u, execAll (List.replicate (n + 1) .gadv) t = .next u ∧ u.rsp = some ⟨.ok, 0#64⟩) ∧
      (∃ v, exec .build t = .next v ∧ Memory.holds v.masks (Vector.replicate 128 0#64))) ∧
  Function.Bijective (mapF (Vector.replicate 128 0#64))

/-- R75: each step of `ADV` with an amount of at least 1 is a bijection, and so is `ADV`; then a non-zero word never
becomes zero. An amount of 64 or more gives the identity, an amount of 0 the zero map. -/
def Obligations.AdvIsBijective : Prop :=
  (∀ n : Nat, 1 ≤ n → Function.Bijective (fun t : Word => t ^^^ shl64 t n) ∧
    Function.Bijective (fun t : Word => t ^^^ shr64 t n)) ∧
  (∀ a b c : Amount, a ≠ 0#32 → b ≠ 0#32 → c ≠ 0#32 →
    Function.Bijective (fun s : Word => adv s a b c) ∧ ∀ s : Word, s ≠ 0#64 → adv s a b c ≠ 0#64) ∧
  (∀ (t : Word) (n : Nat), 64 ≤ n → t ^^^ shl64 t n = t ∧ t ^^^ shr64 t n = t) ∧
  ¬ Function.Bijective (fun t : Word => t ^^^ shl64 t 0) ∧ ¬ Function.Bijective (fun t : Word => t ^^^ shr64 t 0)

/-- R73: the word sequence. After GLOAD, the `n`-th `advance` step returns `w_n` and leaves `state = w_n`, whether issued
by GADV or inside BUILD, and the sequence depends on nothing but GLOAD's operands. -/
def Obligations.AdvanceStepsReturnTheSequence : Prop :=
  ∀ (s : State) (seed : Word) (a b c : Amount), s.phase = .empty →
    ∃ t, exec (.gload seed a b c) s = .next t ∧
      (∀ n, ∃ u, execAll (List.replicate (n + 1) .gadv) t = .next u ∧
        u.rsp = some ⟨.ok, genWord seed a b c n⟩ ∧ u.state = some (genWord seed a b c n)) ∧
      (∀ n, ∃ u, execAll (List.replicate n .gadv ++ [.build]) t = .next u ∧
        u.state = some (genWord seed a b c (n + 127)) ∧
        ∀ k : MaskIndex, Memory.read u.masks k.val = some (genWord seed a b c (n + k.val) &&& keep k))

/-! ### The table's construction (41_table_build.md) -/

/-- R80: `KEEP(k)` has every bit set except bit `k >> 1`, and the two entries of a round share it. -/
def Obligations.KeepClearsOneBit : Prop :=
  (∀ (k : MaskIndex) (j : Nat), j < 64 → (keep k).getLsbD j = decide (j ≠ k.val >>> 1)) ∧
  (∀ (r : Round) (k k' : MaskIndex), k.val = 2 * r.val → k'.val = 2 * r.val + 1 → keep k = keep k') ∧
  keep 0 = 0xFFFFFFFFFFFFFFFE#64 ∧ keep 2 = 0xFFFFFFFFFFFFFFFD#64 ∧ keep 126 = 0x7FFFFFFFFFFFFFFF#64

/-- R81: the loop that draws a word and writes it masked, 128 times in ascending order, computes `TABLE`: entry `k` is
`w_k & KEEP(k)` and the state returned is `w_127`. -/
def Obligations.BuildLoopComputesTable : Prop :=
  ∀ (w : Word) (a b c : Amount),
    buildLoop a b c (List.finRange 128) w [] = (genWord w a b c 127, Memory.ofTable (table w a b c)) ∧
    ∀ k : MaskIndex, Memory.read (buildLoop a b c (List.finRange 128) w []).2 k.val = some (genWord w a b c k.val &&& keep k)

/-- R82: BUILD, accepted in SEEDED: the table, the last word drawn, phase BUILT, and nothing else; rejected in every other
phase with nothing written. -/
def Obligations.BuildFillsTable : Prop :=
  (∀ (s : State) (w : Word) (a b c : Amount), s.phase = .seeded → s.holdsGen w a b c →
    ∃ m, exec .build s =
        .next { s with state := some (tableState w a b c), masks := m, phase := .built, rsp := some ⟨.ok, 0#64⟩ } ∧
      Memory.holds m (table w a b c) ∧ (∀ k, 128 ≤ k → Memory.read m k = Memory.read s.masks k) ∧
      (s.masks = [] → m = Memory.ofTable (table w a b c))) ∧
  (∀ s : State, s.phase ≠ .seeded → exec .build s = .next { s with rsp := some ⟨.phase, 0#64⟩ }) ∧
  cmdOp (encode .build) = 3#3 ∧ Instr.format .build = .n ∧
  (table 1#64 13#32 7#32 17#32)[0] = 0x40822040#64 ∧ (table 1#64 13#32 7#32 17#32)[1] = 0x100041060C011440#64 ∧
  tableState 1#64 13#32 7#32 17#32 = 0x2B9CC76C10B4C6AF#64

/-- R84: the content of a built table, bit by bit; bits below the cleared one are in general set; and the cleared bit has
no influence on MAP or UNMAP. -/
def Obligations.TableBitsAreWordBits : Prop :=
  (∀ (w : Word) (a b c : Amount) (k : MaskIndex) (j : Nat), j < 64 →
    (table w a b c)[k].getLsbD j = (decide (j ≠ k.val >>> 1) && (genWord w a b c k.val).getLsbD j)) ∧
  (table 1#64 13#32 7#32 17#32)[126] = 0x2ACFCC3512822E33#64 ∧
  (table 1#64 13#32 7#32 17#32)[127] = 0x2B9CC76C10B4C6AF#64 ∧
  (∀ t t' : Table, (∀ (k : MaskIndex) (j : Nat), j < 64 → j ≠ k.val >>> 1 → t[k].getLsbD j = t'[k].getLsbD j) →
    ∀ x, mapF t x = mapF t' x ∧ unmapF t x = unmapF t' x)

/-- R85: from EMPTY, GLOAD and BUILD leave `TABLE(seed, a, b, c)`; with `j + 1` GADV between them, the table of a
generator seeded with the word the last GADV returned. As steps of the machine. -/
def Obligations.ConstructionAfterGadv : Prop :=
  (∀ (s : State) (seed : Word) (a b c : Amount), s.phase = .empty →
    ∃ t, run 2 (s.issue [.gload seed a b c, .build]) = .next t ∧ t.phase = .built ∧ t.rsp = some ⟨.ok, 0#64⟩ ∧
      Memory.holds t.masks (table seed a b c)) ∧
  (∀ (s : State) (seed : Word) (a b c : Amount) (j : Nat), s.phase = .empty →
    ∃ t, run (j + 3) (s.issue (.gload seed a b c :: (List.replicate (j + 1) .gadv ++ [.build]))) = .next t ∧
      t.phase = .built ∧ t.rsp = some ⟨.ok, 0#64⟩ ∧ Memory.holds t.masks (table (genWord seed a b c j) a b c))

/-- R86: a zero seed gives 128 zero words and leaves `state = 0`, for any triplet. -/
def Obligations.ZeroSeedBuildsZeroTable : Prop :=
  ∀ (s : State) (a b c : Amount), s.phase = .empty →
    ∃ t, execAll [.gload 0#64 a b c, .build] s = .next t ∧ t.state = some 0#64 ∧
      ∀ k : MaskIndex, Memory.read t.masks k.val = some 0#64

/-- R87: two blocks that execute the same GLOAD, the same number of GADV and then BUILD hold identical tables and answer
every MAP and UNMAP identically, whatever else they held before. -/
def Obligations.ConstructionIsDeterministic : Prop :=
  ∀ (s s' : State) (seed : Word) (a b c : Amount) (j : Nat), s.phase = .empty → s'.phase = .empty →
    ∃ t t', execAll (.gload seed a b c :: (List.replicate j .gadv ++ [.build])) s = .next t ∧
      execAll (.gload seed a b c :: (List.replicate j .gadv ++ [.build])) s' = .next t' ∧
      (∀ k : MaskIndex, Memory.read t.masks k.val = Memory.read t'.masks k.val) ∧
      ∀ x, ∃ u u' v v', exec (.map x) t = .next u ∧ exec (.map x) t' = .next u' ∧ u.rsp = u'.rsp ∧
        exec (.unmap x) t = .next v ∧ exec (.unmap x) t' = .next v' ∧ v.rsp = v'.rsp

/-- 20_memory.md section 1, the model's canonical form (log 2): two tables in it that read alike are equal data. -/
def Obligations.CanonicalTablesThatReadAlikeAreEqual : Prop :=
  ∀ m m' : Memory, Memory.wf m = true → Memory.wf m' = true → (∀ k, Memory.read m k = Memory.read m' k) → m = m'

/-! ### The pipeline (20_memory.md, 42_mixing_pipeline.md) -/

/-- R36: the index a stage forms is `(i << 1) + b`, never outside the table, and is the concatenation `{i[5:0], b}`. -/
def Obligations.StageIndexIsConcatenation : Prop :=
  ∀ (i : Round) (num : Word),
    (maskIndex i num).val = 2 * i.val + (num.getLsbD i.val).toNat ∧ (maskIndex i num).val ≤ 127 ∧
    BitVec.ofNat 7 (maskIndex i num).val = BitVec.ofNat 6 i.val ++ BitVec.ofBool (num.getLsbD i.val)

/-- R102: the two branches of `STAGE` are one expression, and its bits. -/
def Obligations.StageIsSingleExpression : Prop :=
  ∀ (t : Table) (i : Round) (num : Word) (k : MaskIndex), k.val = 2 * i.val + (num.getLsbD i.val).toNat →
    stage t i num = num ^^^ ~~~(t[k] ||| 1#64 <<< i.val) ∧
    (stage t i num).getLsbD i.val = num.getLsbD i.val ∧
    ∀ j, j < 64 → j ≠ i.val → (stage t i num).getLsbD j = !(num.getLsbD j ^^ t[k].getLsbD j)

/-- R104: a stage never changes its own bit; so that bit of its two masks has no influence, and the stage selects the same
mask on its own output. -/
def Obligations.StageKeepsOwnBit : Prop :=
  (∀ (t : Table) (i : Round) (num : Word), (stage t i num).getLsbD i.val = num.getLsbD i.val ∧
    maskIndex i (stage t i num) = maskIndex i num) ∧
  (∀ (t t' : Table) (i : Round) (num : Word),
    (∀ (k : MaskIndex) (j : Nat), j < 64 → j ≠ k.val >>> 1 → t[k].getLsbD j = t'[k].getLsbD j) →
    stage t i num = stage t' i num)

/-- R105: a stage is its own inverse, for every table. -/
def Obligations.StageIsInvolution : Prop :=
  ∀ (t : Table) (i : Round) (num : Word), stage t i (stage t i num) = num

/-- 42_mixing_pipeline.md section 2: a stage changes exactly the bits other than its own at which the selected mask has a
0, below its own bit as well as above. -/
def Obligations.StageFlipsWhereMaskIsZero : Prop :=
  (∀ (t : Table) (i : Round) (num : Word) (j : Nat), j < 64 →
    ((stage t i num).getLsbD j ≠ num.getLsbD j ↔ j ≠ i.val ∧ t[maskIndex i num].getLsbD j = false)) ∧
  stage (table 1#64 13#32 7#32 17#32) 40 0xFFFF#64 = 0xF26FBC87FCEE7EBD#64

/-- 42_mixing_pipeline.md section 3: stages do not commute in general, and the two transforms differ. -/
def Obligations.StagesDoNotCommute : Prop :=
  (∃ (t : Table) (i j : Round) (num : Word), i ≠ j ∧ stage t i (stage t j num) ≠ stage t j (stage t i num)) ∧
  (∃ (t : Table) (x : Word), mapF t x ≠ unmapF t x)

/-- R101: the bijection law, for every table and every word, and on the block in phase BUILT. -/
def Obligations.UnmapInvertsMap : Prop :=
  (∀ (t : Table) (x : Word), unmapF t (mapF t x) = x ∧ mapF t (unmapF t x) = x) ∧
  (∀ t : Table, Function.Bijective (mapF t) ∧ Function.Bijective (unmapF t)) ∧
  (∀ (s : State) (t : Table) (x : Word), s.phase = .built → Memory.holds s.masks t →
    (∃ u v y, exec (.map x) s = .next u ∧ u.rsp = some ⟨.ok, y⟩ ∧ exec (.unmap y) u = .next v ∧ v.rsp = some ⟨.ok, x⟩) ∧
    (∃ u v y, exec (.unmap x) s = .next u ∧ u.rsp = some ⟨.ok, y⟩ ∧ exec (.map y) u = .next v ∧ v.rsp = some ⟨.ok, x⟩))

/-- R106: with an all-zero table every stage flips every bit but its own, and MAP and UNMAP are the complement. -/
def Obligations.ZeroTableMapsToComplement : Prop :=
  (∀ t : Table, (∀ k : MaskIndex, t[k] = 0#64) →
    (∀ (i : Round) (num : Word), stage t i num = num ^^^ ~~~(1#64 <<< i.val)) ∧
    (∀ x : Word, mapF t x = ~~~x ∧ unmapF t x = ~~~x ∧ mapF t (mapF t x) = x)) ∧
  mapF (Vector.replicate 128 0#64) 0x0123456789ABCDEF#64 = 0xFEDCBA9876543210#64

/-- R108: the closed form over the masks read, for a table whose entries have their own bit 0, which BUILD guarantees. -/
def Obligations.TransformsHaveClosedForm : Prop :=
  (∀ (t : Table) (x : Word), (∀ k : MaskIndex, t[k].getLsbD (k.val >>> 1) = false) →
    mapF t x = ~~~((readIndices t rounds x).foldl (fun acc k => acc ^^^ t[k]) x) ∧
    unmapF t x = ~~~((readIndices t rounds.reverse x).foldl (fun acc k => acc ^^^ t[k]) x)) ∧
  ∀ (w : Word) (a b c : Amount) (k : MaskIndex), (table w a b c)[k].getLsbD (k.val >>> 1) = false

/-- R112: every stage is affine over the two-element field, so MAP and UNMAP are, and each is fixed by its values at 0 and
at the 64 single-bit words. -/
def Obligations.TransformsAreAffine : Prop :=
  (∀ (t : Table) (i : Round) (num : Word) (k k' : MaskIndex), k.val = 2 * i.val → k'.val = 2 * i.val + 1 →
    stage t i num = num ^^^ ~~~(t[k] ||| 1#64 <<< i.val) ^^^
      (if num.getLsbD i.val then (t[k] ^^^ t[k']) &&& ~~~(1#64 <<< i.val) else 0#64)) ∧
  (∀ (t : Table) (i : Round) (u v : Word), stage t i (u ^^^ v) = stage t i u ^^^ stage t i v ^^^ stage t i 0#64) ∧
  (∀ (t : Table) (x y : Word), mapF t (x ^^^ y) = mapF t x ^^^ mapF t y ^^^ mapF t 0#64 ∧
    unmapF t (x ^^^ y) = unmapF t x ^^^ unmapF t y ^^^ unmapF t 0#64) ∧
  (∀ (t : Table) (x : Word),
    mapF t x = (List.range 64).foldl
      (fun acc j => if x.getLsbD j then acc ^^^ (mapF t (1#64 <<< j) ^^^ mapF t 0#64) else acc) (mapF t 0#64) ∧
    unmapF t x = (List.range 64).foldl
      (fun acc j => if x.getLsbD j then acc ^^^ (unmapF t (1#64 <<< j) ^^^ unmapF t 0#64) else acc) (unmapF t 0#64)) ∧
  mapF (table 1#64 13#32 7#32 17#32) 0#64 ^^^ mapF (table 1#64 13#32 7#32 17#32) 1#64 = 0x18FB75B044336A49#64 ∧
  mapF (table 1#64 13#32 7#32 17#32) 2#64 ^^^ mapF (table 1#64 13#32 7#32 17#32) 3#64 = 0x18FB75B044336A49#64

/-- R98: MAP, accepted in BUILT for every word: the result and nothing else, from exactly 64 entries read; rejected in
every other phase. -/
def Obligations.MapAnswersMapf : Prop :=
  (∀ (s : State) (t : Table) (x : Word), s.phase = .built → Memory.holds s.masks t →
    exec (.map x) s = .next { s with rsp := some ⟨.ok, mapF t x⟩ }) ∧
  (∀ (s : State) (x : Word), s.phase ≠ .built → exec (.map x) s = .next { s with rsp := some ⟨.phase, 0#64⟩ }) ∧
  (∀ (s : State) (t : Table) (x : Word), s.phase = .built → (readIndices t rounds x).length = 64 ∧
    ((∀ k ∈ readIndices t rounds x, Memory.read s.masks k.val = some t[k]) →
      exec (.map x) s = .next { s with rsp := some ⟨.ok, mapF t x⟩ })) ∧
  (∀ x : Word, cmdOp (encode (.map x)) = 4#3 ∧ (Instr.map x).format = .x) ∧
  mapF (table 1#64 13#32 7#32 17#32) 0#64 = 0x8F9655542B7BD987#64

/-- R100: UNMAP, accepted in BUILT for every word: the same stages in descending order; rejected in every other phase. -/
def Obligations.UnmapAnswersUnmapf : Prop :=
  (∀ (s : State) (t : Table) (x : Word), s.phase = .built → Memory.holds s.masks t →
    exec (.unmap x) s = .next { s with rsp := some ⟨.ok, unmapF t x⟩ }) ∧
  (∀ (s : State) (x : Word), s.phase ≠ .built → exec (.unmap x) s = .next { s with rsp := some ⟨.phase, 0#64⟩ }) ∧
  (∀ (s : State) (t : Table) (x : Word), s.phase = .built → (readIndices t rounds.reverse x).length = 64 ∧
    ((∀ k ∈ readIndices t rounds.reverse x, Memory.read s.masks k.val = some t[k]) →
      exec (.unmap x) s = .next { s with rsp := some ⟨.ok, unmapF t x⟩ })) ∧
  (∀ x : Word, cmdOp (encode (.unmap x)) = 5#3 ∧ (Instr.unmap x).format = .x) ∧
  unmapF (table 1#64 13#32 7#32 17#32) 0x8F9655542B7BD987#64 = 0#64 ∧
  unmapF (table 1#64 13#32 7#32 17#32) 0#64 = 0x0B7B4A45478ED02C#64

/-- R110: in BUILT, after any sequence of MAP and UNMAP the state is what it was and the same command gives the same
response. -/
def Obligations.TransformsAreRepeatable : Prop :=
  ∀ (s : State) (t : Table) (cmds : List Instr), s.phase = .built → Memory.holds s.masks t →
    (∀ i ∈ cmds, isTransform i = true) →
    ∃ u, execAll cmds s = .next u ∧ u = { s with rsp := u.rsp } ∧
      ∀ x, exec (.map x) u = exec (.map x) s ∧ exec (.unmap x) u = exec (.unmap x) s ∧
        ∃ v w, exec (.map x) u = .next v ∧ exec (.unmap x) u = .next w

/-! ### Rejections and the lifecycle (10_state.md, 60_exceptions.md) -/

/-- R123: the complete table of outcomes: rejected with PHASE in every phase but the command's own, executed in its own,
and ILLEGAL for a reserved opcode in every phase. -/
def Obligations.AcceptanceMatrix : Prop :=
  (∀ (s : State) (x : Word) (a b c : Amount),
    (s.phase = .seeded ∨ s.phase = .built → exec (.gload x a b c) s = .next { s with rsp := some ⟨.phase, 0#64⟩ }) ∧
    (s.phase = .empty ∨ s.phase = .built → exec .gadv s = .next { s with rsp := some ⟨.phase, 0#64⟩ } ∧
      exec .build s = .next { s with rsp := some ⟨.phase, 0#64⟩ }) ∧
    (s.phase = .empty ∨ s.phase = .seeded → exec (.map x) s = .next { s with rsp := some ⟨.phase, 0#64⟩ } ∧
      exec (.unmap x) s = .next { s with rsp := some ⟨.phase, 0#64⟩ }) ∧
    exec .reserved0 s = .next { s with rsp := some ⟨.illegal, 0#64⟩ } ∧
    exec .reserved6 s = .next { s with rsp := some ⟨.illegal, 0#64⟩ } ∧
    exec .reserved7 s = .next { s with rsp := some ⟨.illegal, 0#64⟩ }) ∧
  (∀ (s : State) (x : Word) (a b c : Amount), s.Inv →
    (s.phase = .empty → ∃ t d, exec (.gload x a b c) s = .next t ∧ t.rsp = some ⟨.ok, d⟩) ∧
    (s.phase = .seeded → ∃ t d u e, exec .gadv s = .next t ∧ t.rsp = some ⟨.ok, d⟩ ∧
      exec .build s = .next u ∧ u.rsp = some ⟨.ok, e⟩) ∧
    (s.phase = .built → ∃ t d u e, exec (.map x) s = .next t ∧ t.rsp = some ⟨.ok, d⟩ ∧
      exec (.unmap x) s = .next u ∧ u.rsp = some ⟨.ok, e⟩)) ∧
  Status.code .phase = 2#2

/-- R121: a rejection writes no state element; the response is the code and 0. For every state and command. -/
def Obligations.RejectionWritesNothing : Prop :=
  ∀ (i : Instr) (s t : State) (st : Status) (d : Word), exec i s = .next t → t.rsp = some ⟨st, d⟩ → st ≠ .ok →
    t = { s with rsp := some ⟨st, 0#64⟩ }

/-- R127: a rejection is not sticky: the same command is rejected again with the same code, and every other command does
what it would have done had the rejected one never been issued. -/
def Obligations.RejectionIsNotSticky : Prop :=
  ∀ (i : Instr) (s t : State) (st : Status) (d : Word), exec i s = .next t → t.rsp = some ⟨st, d⟩ → st ≠ .ok →
    exec i t = .next t ∧ ∀ j : Instr, exec j t = exec j s

/-- R125: at most one cause applies: ILLEGAL only to reserved opcodes, PHASE only to defined ones, and the phase is not
consulted for a reserved opcode. -/
def Obligations.CausesAreDisjoint : Prop :=
  (∀ (i : Instr) (s t : State) (d : Word), exec i s = .next t →
    (t.rsp = some ⟨.illegal, d⟩ → i = .reserved0 ∨ i = .reserved6 ∨ i = .reserved7) ∧
    (t.rsp = some ⟨.phase, d⟩ → i ≠ .reserved0 ∧ i ≠ .reserved6 ∧ i ≠ .reserved7)) ∧
  (∀ (i : Instr) (s : State) (p : Phase), i = .reserved0 ∨ i = .reserved6 ∨ i = .reserved7 →
    exec i { s with phase := p } = .next { s with phase := p, rsp := some ⟨.illegal, 0#64⟩ })

/-- 10_state.md section 3: the transitions of `phase`: an accepted GLOAD sets SEEDED, an accepted BUILD sets BUILT,
nothing else changes it, and only reset returns to EMPTY. -/
def Obligations.LifecycleIsOneWay : Prop :=
  (∀ (i : Instr) (s t : State), exec i s = .next t →
    t.phase = s.phase ∨
    (s.phase = .empty ∧ t.phase = .seeded ∧ ∃ x a b c, i = .gload x a b c) ∨
    (s.phase = .seeded ∧ t.phase = .built ∧ i = .build)) ∧
  (∀ s t : State, step s = .next t → s.phase ≠ .empty → t.phase = .empty → ∃ rest, s.port = .reset :: rest)

/-- 10_state.md section 6: which command writes which element; every other element is left as it was. -/
def Obligations.CommandsWriteOnlyTheirElements : Prop :=
  ∀ (i : Instr) (s t : State), exec i s = .next t →
    t.port = s.port ∧
    (i ≠ .build → t.masks = s.masks) ∧
    ((∀ x a b c, i ≠ .gload x a b c) → t.shiftA = s.shiftA ∧ t.shiftB = s.shiftB ∧ t.shiftC = s.shiftC) ∧
    ((∀ x a b c, i ≠ .gload x a b c) → i ≠ .gadv → i ≠ .build → t.state = s.state) ∧
    ((∀ x a b c, i ≠ .gload x a b c) → i ≠ .build → t.phase = s.phase)

/-- 10_state.md sections 1 and 2: in BUILT no command writes the table, the generator or `phase` (write-once table,
discarded generator); the response alone changes. -/
def Obligations.BuiltBlockIsReadOnly : Prop :=
  ∀ (i : Instr) (s t : State), s.phase = .built → exec i s = .next t → t = { s with rsp := t.rsp }

/-- 93_implementation_defined.md U11: in BUILT no response depends on what the generator registers hold. -/
def Obligations.BuiltResponsesIgnoreGenerator : Prop :=
  ∀ (i : Instr) (s : State) (tbl : Table) (g : Option Word) (a b c : Option Amount), s.phase = .built →
    Memory.holds s.masks tbl →
    ∃ t t', exec i s = .next t ∧
      exec i { s with state := g, shiftA := a, shiftB := b, shiftC := c } = .next t' ∧ t.rsp = t'.rsp

/-- The invariant of the lifecycle holds after reset. -/
def Obligations.LifecycleHoldsAtReset : Prop :=
  State.reset.Inv ∧ ∀ rest : List HostEvent, State.Inv { State.reset with port := rest }

/-- R142: from every state of the lifecycle the block takes its next step, whatever the host presents: no accepted
command reads an element that holds no value, and none is refused; and the invariant is kept. So from reset on. -/
def Obligations.NoAbsentValueIsEverRead : Prop :=
  (∀ s : State, s.Inv → ∃ t, step s = .next t ∧ t.Inv) ∧
  (∀ (n : Nat) (s : State), s.Inv → ∃ t, run n s = .next t ∧ t.Inv) ∧
  (∀ (n : Nat) (events : List HostEvent), ∃ t, run n { State.reset with port := events } = .next t ∧ t.Inv)

/-- The table keeps its canonical form at every step (log 2), from every state that has it. -/
def Obligations.StepKeepsTableForm : Prop :=
  ∀ s t : State, Memory.wf s.masks = true → step s = .next t → Memory.wf t.masks = true

/-- 10_state.md section 2: in phase BUILT of the lifecycle every entry holds a value, and bit `k >> 1` of entry `k` is
0. -/
def Obligations.BuiltTableHasClearedBits : Prop :=
  ∀ s : State, s.Inv → s.phase = .built →
    ∀ k : MaskIndex, ∃ v, Memory.read s.masks k.val = some v ∧ v.getLsbD (k.val >>> 1) = false

/-- 93_implementation_defined.md U8: a read of an element that holds no value is an error. Such states are not reached
from reset (R142); the model stops in them. Which absent register is named first is the model's choice (log 15). -/
def Obligations.AbsentReadIsAnError : Prop :=
  (∀ s : State, s.phase = .seeded → s.state = none →
    exec .gadv s = .fault (.absentRegister .state) ∧ exec .build s = .fault (.absentRegister .state)) ∧
  (∀ (s : State) (w : Word), s.phase = .seeded → s.state = some w → s.shiftA = none →
    exec .gadv s = .fault (.absentRegister .shiftA) ∧ exec .build s = .fault (.absentRegister .shiftA)) ∧
  (∀ (s : State) (w : Word) (a : Amount), s.phase = .seeded → s.state = some w → s.shiftA = some a →
    s.shiftB = none →
    exec .gadv s = .fault (.absentRegister .shiftB) ∧ exec .build s = .fault (.absentRegister .shiftB)) ∧
  (∀ (s : State) (w : Word) (a b : Amount), s.phase = .seeded → s.state = some w → s.shiftA = some a →
    s.shiftB = some b → s.shiftC = none →
    exec .gadv s = .fault (.absentRegister .shiftC) ∧ exec .build s = .fault (.absentRegister .shiftC)) ∧
  (∀ (s : State) (x : Word), s.phase = .built → s.masks = [] →
    exec (.map x) s = .fault .absentMask ∧ exec (.unmap x) s = .fault .absentMask)

/-- R143: bring-up. Whatever the block held, after reset, GLOAD and BUILD every sequence of MAP and UNMAP is answered, each
with its transform of the table of the seed; or, after GLOAD, every GADV with the generator's next word. As steps of the
machine. -/
def Obligations.BringUpMakesTransformsAvailable : Prop :=
  (∀ (s : State) (seed : Word) (a b c : Amount) (cmds : List Instr), (∀ i ∈ cmds, isTransform i = true) →
    s.port = .reset :: (Instr.gload seed a b c :: Instr.build :: cmds).map (fun i => HostEvent.command (encode i)) →
    (∃ t, run 2 s = .next t ∧ t.phase = .seeded ∧ t.rsp = some ⟨.ok, 0#64⟩) ∧
    (∃ t, run 3 s = .next t ∧ t.phase = .built ∧ t.rsp = some ⟨.ok, 0#64⟩) ∧
    ∀ (done : List Instr) (x : Word) (later : List Instr),
      (cmds = done ++ .map x :: later → ∃ t, run (4 + done.length) s = .next t ∧ t.phase = .built ∧
        t.rsp = some ⟨.ok, mapF (table seed a b c) x⟩) ∧
      (cmds = done ++ .unmap x :: later → ∃ t, run (4 + done.length) s = .next t ∧ t.phase = .built ∧
        t.rsp = some ⟨.ok, unmapF (table seed a b c) x⟩)) ∧
  (∀ (s : State) (seed : Word) (a b c : Amount) (n : Nat),
    s.port = .reset :: (Instr.gload seed a b c :: List.replicate (n + 1) .gadv).map (fun i => HostEvent.command (encode i)) →
    ∃ t, run (n + 3) s = .next t ∧ t.phase = .seeded ∧ t.rsp = some ⟨.ok, genWord seed a b c n⟩)

/-! ### The assembler (30_encoding.md section 7) -/

/-- 30_encoding.md section 7: the assembler takes exactly the operands that fit their fields, and the bundle it gives has
the opcode, the operands, and zero elsewhere. -/
def Obligations.AssemblerTakesFittingOperands : Prop :=
  (∀ seed a b c : Nat, (assembleLine (.gload seed a b c) = none ↔
      2 ^ 64 ≤ seed ∨ 2 ^ 32 ≤ a ∨ 2 ^ 32 ≤ b ∨ 2 ^ 32 ≤ c) ∧
    (seed < 2 ^ 64 → a < 2 ^ 32 → b < 2 ^ 32 → c < 2 ^ 32 → ∃ i, assembleLine (.gload seed a b c) = some [i] ∧
      (encode i).toNat = 1 + seed * 2 ^ 3 + a * 2 ^ 67 + b * 2 ^ 99 + c * 2 ^ 131)) ∧
  (∀ x : Nat, (assembleLine (.map x) = none ↔ 2 ^ 64 ≤ x) ∧ (assembleLine (.unmap x) = none ↔ 2 ^ 64 ≤ x) ∧
    (x < 2 ^ 64 → ∃ i j, assembleLine (.map x) = some [i] ∧ (encode i).toNat = 4 + x * 2 ^ 3 ∧
      assembleLine (.unmap x) = some [j] ∧ (encode j).toNat = 5 + x * 2 ^ 3)) ∧
  (∃ i j, assembleLine .gadv = some [i] ∧ (encode i).toNat = 2 ∧ assembleLine .build = some [j] ∧ (encode j).toNat = 3)

/-- R55: NEW expands to GLOAD with the same operands and BUILD; right after reset both are accepted and the table is
`TABLE(seed, a, b, c)`. -/
def Obligations.NewExpandsToGloadBuild : Prop :=
  ∀ seed a b c : Nat,
    (assembleLine (.new seed a b c) = none ↔ assembleLine (.gload seed a b c) = none) ∧
    ∀ cmds, assembleLine (.new seed a b c) = some cmds →
      assembleLine (.gload seed a b c) = some (cmds.take 1) ∧ assembleLine .build = some (cmds.drop 1) ∧
      ∃ t u, run 1 (State.reset.issue cmds) = .next t ∧ t.rsp = some ⟨.ok, 0#64⟩ ∧
        run 2 (State.reset.issue cmds) = .next u ∧ u.rsp = some ⟨.ok, 0#64⟩ ∧ u.phase = .built ∧
        Memory.holds u.masks (table (BitVec.ofNat 64 seed) (BitVec.ofNat 32 a) (BitVec.ofNat 32 b) (BitVec.ofNat 32 c))
end

