-- ==== Sys2Proof/Laws/State.lean ====
section
/-! SUPPORT. One lemma per field per update of the state, so that no later proof unfolds a record update. -/

namespace Sys2Proof.Machine

@[simp] theorem State.setGen_phase (w : Word) (s : State) : (s.setGen w).phase = s.phase := rfl
@[simp] theorem State.setGen_state (w : Word) (s : State) : (s.setGen w).state = some w := rfl
@[simp] theorem State.setGen_shiftA (w : Word) (s : State) : (s.setGen w).shiftA = s.shiftA := rfl
@[simp] theorem State.setGen_shiftB (w : Word) (s : State) : (s.setGen w).shiftB = s.shiftB := rfl
@[simp] theorem State.setGen_shiftC (w : Word) (s : State) : (s.setGen w).shiftC = s.shiftC := rfl
@[simp] theorem State.setGen_masks (w : Word) (s : State) : (s.setGen w).masks = s.masks := rfl
@[simp] theorem State.setGen_rsp (w : Word) (s : State) : (s.setGen w).rsp = s.rsp := rfl
@[simp] theorem State.setGen_port (w : Word) (s : State) : (s.setGen w).port = s.port := rfl

@[simp] theorem State.loadGen_phase (x : Word) (a b c : Amount) (s : State) : (s.loadGen x a b c).phase = s.phase := rfl
@[simp] theorem State.loadGen_state (x : Word) (a b c : Amount) (s : State) : (s.loadGen x a b c).state = some x := rfl
@[simp] theorem State.loadGen_shiftA (x : Word) (a b c : Amount) (s : State) : (s.loadGen x a b c).shiftA = some a := rfl
@[simp] theorem State.loadGen_shiftB (x : Word) (a b c : Amount) (s : State) : (s.loadGen x a b c).shiftB = some b := rfl
@[simp] theorem State.loadGen_shiftC (x : Word) (a b c : Amount) (s : State) : (s.loadGen x a b c).shiftC = some c := rfl
@[simp] theorem State.loadGen_masks (x : Word) (a b c : Amount) (s : State) : (s.loadGen x a b c).masks = s.masks := rfl
@[simp] theorem State.loadGen_rsp (x : Word) (a b c : Amount) (s : State) : (s.loadGen x a b c).rsp = s.rsp := rfl
@[simp] theorem State.loadGen_port (x : Word) (a b c : Amount) (s : State) : (s.loadGen x a b c).port = s.port := rfl

@[simp] theorem State.setMasks_phase (m : Memory) (s : State) : (s.setMasks m).phase = s.phase := rfl
@[simp] theorem State.setMasks_state (m : Memory) (s : State) : (s.setMasks m).state = s.state := rfl
@[simp] theorem State.setMasks_shiftA (m : Memory) (s : State) : (s.setMasks m).shiftA = s.shiftA := rfl
@[simp] theorem State.setMasks_shiftB (m : Memory) (s : State) : (s.setMasks m).shiftB = s.shiftB := rfl
@[simp] theorem State.setMasks_shiftC (m : Memory) (s : State) : (s.setMasks m).shiftC = s.shiftC := rfl
@[simp] theorem State.setMasks_masks (m : Memory) (s : State) : (s.setMasks m).masks = m := rfl
@[simp] theorem State.setMasks_rsp (m : Memory) (s : State) : (s.setMasks m).rsp = s.rsp := rfl
@[simp] theorem State.setMasks_port (m : Memory) (s : State) : (s.setMasks m).port = s.port := rfl

@[simp] theorem State.setPhase_phase (p : Phase) (s : State) : (s.setPhase p).phase = p := rfl
@[simp] theorem State.setPhase_state (p : Phase) (s : State) : (s.setPhase p).state = s.state := rfl
@[simp] theorem State.setPhase_shiftA (p : Phase) (s : State) : (s.setPhase p).shiftA = s.shiftA := rfl
@[simp] theorem State.setPhase_shiftB (p : Phase) (s : State) : (s.setPhase p).shiftB = s.shiftB := rfl
@[simp] theorem State.setPhase_shiftC (p : Phase) (s : State) : (s.setPhase p).shiftC = s.shiftC := rfl
@[simp] theorem State.setPhase_masks (p : Phase) (s : State) : (s.setPhase p).masks = s.masks := rfl
@[simp] theorem State.setPhase_rsp (p : Phase) (s : State) : (s.setPhase p).rsp = s.rsp := rfl
@[simp] theorem State.setPhase_port (p : Phase) (s : State) : (s.setPhase p).port = s.port := rfl

@[simp] theorem State.respond_phase (st : Status) (d : Word) (s : State) : (s.respond st d).phase = s.phase := rfl
@[simp] theorem State.respond_state (st : Status) (d : Word) (s : State) : (s.respond st d).state = s.state := rfl
@[simp] theorem State.respond_shiftA (st : Status) (d : Word) (s : State) : (s.respond st d).shiftA = s.shiftA := rfl
@[simp] theorem State.respond_shiftB (st : Status) (d : Word) (s : State) : (s.respond st d).shiftB = s.shiftB := rfl
@[simp] theorem State.respond_shiftC (st : Status) (d : Word) (s : State) : (s.respond st d).shiftC = s.shiftC := rfl
@[simp] theorem State.respond_masks (st : Status) (d : Word) (s : State) : (s.respond st d).masks = s.masks := rfl
@[simp] theorem State.respond_rsp (st : Status) (d : Word) (s : State) : (s.respond st d).rsp = some ⟨st, d⟩ := rfl
@[simp] theorem State.respond_port (st : Status) (d : Word) (s : State) : (s.respond st d).port = s.port := rfl

@[simp] theorem State.setPort_phase (es : List HostEvent) (s : State) : (s.setPort es).phase = s.phase := rfl
@[simp] theorem State.setPort_state (es : List HostEvent) (s : State) : (s.setPort es).state = s.state := rfl
@[simp] theorem State.setPort_shiftA (es : List HostEvent) (s : State) : (s.setPort es).shiftA = s.shiftA := rfl
@[simp] theorem State.setPort_shiftB (es : List HostEvent) (s : State) : (s.setPort es).shiftB = s.shiftB := rfl
@[simp] theorem State.setPort_shiftC (es : List HostEvent) (s : State) : (s.setPort es).shiftC = s.shiftC := rfl
@[simp] theorem State.setPort_masks (es : List HostEvent) (s : State) : (s.setPort es).masks = s.masks := rfl
@[simp] theorem State.setPort_rsp (es : List HostEvent) (s : State) : (s.setPort es).rsp = s.rsp := rfl
@[simp] theorem State.setPort_port (es : List HostEvent) (s : State) : (s.setPort es).port = es := rfl

@[simp] theorem State.reset_phase : State.reset.phase = .empty := rfl
@[simp] theorem State.reset_state : State.reset.state = none := rfl
@[simp] theorem State.reset_shiftA : State.reset.shiftA = none := rfl
@[simp] theorem State.reset_shiftB : State.reset.shiftB = none := rfl
@[simp] theorem State.reset_shiftC : State.reset.shiftC = none := rfl
@[simp] theorem State.reset_masks : State.reset.masks = [] := rfl
@[simp] theorem State.reset_rsp : State.reset.rsp = none := rfl
@[simp] theorem State.reset_port : State.reset.port = [] := rfl

@[simp] theorem State.applyReset_phase (s : State) : s.applyReset.phase = .empty := rfl
@[simp] theorem State.applyReset_state (s : State) : s.applyReset.state = none := rfl
@[simp] theorem State.applyReset_shiftA (s : State) : s.applyReset.shiftA = none := rfl
@[simp] theorem State.applyReset_shiftB (s : State) : s.applyReset.shiftB = none := rfl
@[simp] theorem State.applyReset_shiftC (s : State) : s.applyReset.shiftC = none := rfl
@[simp] theorem State.applyReset_masks (s : State) : s.applyReset.masks = [] := rfl
@[simp] theorem State.applyReset_rsp (s : State) : s.applyReset.rsp = none := rfl
@[simp] theorem State.applyReset_port (s : State) : s.applyReset.port = s.port := rfl

/-- Two responses in a row: only the second is kept (30_encoding.md R50). -/
@[simp] theorem State.respond_respond (st st' : Status) (d d' : Word) (s : State) :
    (s.respond st d).respond st' d' = s.respond st' d' := rfl

/-- Putting the port's own content back changes nothing. -/
@[simp] theorem State.setPort_self (s : State) : s.setPort s.port = s := rfl

/-- Two port updates in a row: only the second is kept. -/
@[simp] theorem State.setPort_setPort (es es' : List HostEvent) (s : State) :
    (s.setPort es).setPort es' = s.setPort es' := rfl

/-- What `withFetchWord` changes: the port alone. -/
theorem State.withFetchWord_eq (s : State) (nbits w : Nat) :
    s.withFetchWord nbits w = s.setPort (.command (tableBundle nbits w) :: s.port) := rfl

end Sys2Proof.Machine
end

