-- ==== Sys2Proof/Laws/Ops.lean ====
section
/-! SUPPORT. One lemma per shared operation that says once everything it can do, and the laws of the table's reads and
writes. Later proofs cite these instead of unfolding the operation. -/

namespace Sys2Proof.Machine

/-! ### Rejection, phase check, register reads -/

/-- A rejection answers and writes the response alone (60_exceptions.md R121). -/
theorem reject_eq (cause : Cause) (s : State) : reject cause s = .next (s.respond cause.status 0#64) := rfl

/-- In the phase a command needs, the check passes. -/
theorem requirePhase_of_eq {p : Phase} {s : State} (h : s.phase = p) (body : Result) :
    requirePhase p s body = body := by simp [requirePhase, h]

/-- In any other phase the command is rejected with PHASE. -/
theorem requirePhase_of_ne {p : Phase} {s : State} (h : s.phase ≠ p) (body : Result) :
    requirePhase p s body = .next (s.respond .phase 0#64) := by
  simp [requirePhase, h, reject, Cause.status]

/-- Everything a phase check can answer. -/
theorem requirePhase_next {p : Phase} {s t : State} {body : Result} (h : requirePhase p s body = .next t) :
    (s.phase = p ∧ body = .next t) ∨ (s.phase ≠ p ∧ t = s.respond .phase 0#64) := by
  by_cases hp : s.phase = p
  · rw [requirePhase_of_eq hp] at h
    exact .inl ⟨hp, h⟩
  · rw [requirePhase_of_ne hp] at h
    exact .inr ⟨hp, (Host.Outcome.next.inj h).symm⟩

/-- A register read that goes on found a value. -/
theorem readReg_next {α : Type} {r : GenReg} {v : Option α} {body : α → Result} {t : State}
    (h : readReg r v body = .next t) : ∃ x, v = some x ∧ body x = .next t := by
  cases v with
  | none => simp [readReg] at h
  | some x => exact ⟨x, rfl, h⟩

/-- A register that holds a value reads as it. -/
@[simp] theorem readReg_some {α : Type} (r : GenReg) (x : α) (body : α → Result) :
    readReg r (some x) body = body x := rfl

/-- A register that holds no value faults (93_implementation_defined.md U8). -/
@[simp] theorem readReg_none {α : Type} (r : GenReg) (body : α → Result) :
    readReg r none body = .fault (.absentRegister r) := rfl

/-- A read of the whole generator that goes on found all four values. -/
theorem readGen_next {s t : State} {body : Word → Amount → Amount → Amount → Result}
    (h : readGen s body = .next t) :
    ∃ w a b c, s.state = some w ∧ s.shiftA = some a ∧ s.shiftB = some b ∧ s.shiftC = some c ∧
      body w a b c = .next t := by
  obtain ⟨w, hw, h⟩ := readReg_next h
  obtain ⟨a, ha, h⟩ := readReg_next h
  obtain ⟨b, hb, h⟩ := readReg_next h
  obtain ⟨c, hc, h⟩ := readReg_next h
  exact ⟨w, a, b, c, hw, ha, hb, hc, h⟩

/-- A generator that holds values reads as them. -/
theorem readGen_some {s : State} {w : Word} {a b c : Amount} (hw : s.state = some w) (ha : s.shiftA = some a)
    (hb : s.shiftB = some b) (hc : s.shiftC = some c) (body : Word → Amount → Amount → Amount → Result) :
    readGen s body = body w a b c := by
  simp [readGen, hw, ha, hb, hc]

/-! ### The table -/

/-- A read after a write to the same entry gives the word written (20_memory.md R32, R33). -/
@[simp] theorem Memory.read_write_same (m : Memory) (k : Nat) (v : Word) :
    Memory.read (Memory.write m k v) k = some v := by
  induction m with
  | nil => simp [Memory.write, Memory.read]
  | cons cell m ih =>
    obtain ⟨a, u⟩ := cell
    simp only [Memory.write]
    split
    · simp [Memory.read]
    · split
      · simp [Memory.read]
      · rename_i hne
        simp [Memory.read, Ne.symm hne, ih]

/-- A write leaves every other entry alone (20_memory.md R33). -/
theorem Memory.read_write_other (m : Memory) {j k : Nat} (h : j ≠ k) (v : Word) :
    Memory.read (Memory.write m k v) j = Memory.read m j := by
  induction m with
  | nil => simp [Memory.write, Memory.read, Ne.symm h]
  | cons cell m ih =>
    obtain ⟨a, u⟩ := cell
    simp only [Memory.write]
    split
    · simp [Memory.read, Ne.symm h]
    · split
      · rename_i hk
        subst hk
        simp [Memory.read, Ne.symm h]
      · simp [Memory.read, ih]

/-- Every cell of a memory after a write is the written one or an old one. -/
theorem Memory.mem_write {m : Memory} {k : Nat} {v : Word} {cell : Nat × Word}
    (h : cell ∈ Memory.write m k v) : cell = (k, v) ∨ cell ∈ m := by
  induction m with
  | nil => simpa [Memory.write] using h
  | cons c m ih =>
    obtain ⟨a, u⟩ := c
    simp only [Memory.write] at h
    split at h
    · simpa using h
    · split at h
      · rcases List.mem_cons.1 h with h | h
        · exact .inl h
        · exact .inr (List.mem_cons_of_mem _ h)
      · rcases List.mem_cons.1 h with h | h
        · exact .inr (h ▸ List.mem_cons_self)
        · rcases ih h with h | h
          · exact .inl h
          · exact .inr (List.mem_cons_of_mem _ h)

/-- The canonical form of a memory with a first cell. -/
theorem Memory.wf_cons {a : Nat} {u : Word} {m : Memory} :
    Memory.wf ((a, u) :: m) = true ↔ a < 128 ∧ (∀ cell ∈ m, a < cell.1) ∧ Memory.wf m = true := by
  simp [Memory.wf, and_assoc]

/-- A write to one of the 128 entries keeps the canonical form. -/
theorem Memory.write_wf {m : Memory} {k : Nat} (hm : Memory.wf m = true) (hk : k < 128) (v : Word) :
    Memory.wf (Memory.write m k v) = true := by
  induction m with
  | nil => simp [Memory.write, Memory.wf, hk]
  | cons cell m ih =>
    obtain ⟨a, u⟩ := cell
    obtain ⟨ha, hlt, hm'⟩ := Memory.wf_cons.1 hm
    simp only [Memory.write]
    split
    · rename_i hka
      refine Memory.wf_cons.2 ⟨hk, fun cell hc => ?_, hm⟩
      rcases List.mem_cons.1 hc with h | h
      · subst h; exact hka
      · exact Nat.lt_trans hka (hlt _ h)
    · split
      · rename_i hka
        subst hka
        exact Memory.wf_cons.2 ⟨hk, hlt, hm'⟩
      · rename_i h1 h2
        refine Memory.wf_cons.2 ⟨ha, fun cell hc => ?_, ih hm'⟩
        rcases Memory.mem_write hc with h | h
        · subst h; simp only; omega
        · exact hlt _ h

/-- The empty table has the canonical form. -/
@[simp] theorem Memory.wf_nil : Memory.wf [] = true := rfl

/-- An empty table holds nothing. -/
@[simp] theorem Memory.read_nil (k : Nat) : Memory.read [] k = none := rfl

/-- The table after reset has the canonical form. -/
theorem State.reset_masks_wf : Memory.wf State.reset.masks = true := rfl

/-! ### Words -/

/-- The bits of `1 << i`. -/
theorem bitWord_getLsbD (i : Round) (j : Nat) : (bitWord i).getLsbD j = decide (j = i.val) := by
  have hi := i.isLt
  simp only [bitWord, BitVec.getLsbD_shiftLeft, BitVec.getLsbD_one]
  by_cases h : j = i.val
  · subst h; simp [hi]
  · by_cases hj : j < i.val
    · simp [hj, h]
    · have : j - i.val ≠ 0 := by omega
      simp [this, h]

/-- The bits of `shl64` for any amount (00_scope.md R6). -/
theorem shl64_getLsbD (v : Word) (n j : Nat) :
    (shl64 v n).getLsbD j = (decide (j < 64) && !decide (j < n) && v.getLsbD (j - n)) := by
  unfold shl64
  split
  · simp [BitVec.getLsbD_shiftLeft]
  · rename_i hn
    by_cases hj : j < 64
    · have : j < n := by omega
      simp [this]
    · simp [hj]

/-- The bits of `shr64` for any amount (00_scope.md R6). -/
theorem shr64_getLsbD (v : Word) (n j : Nat) : (shr64 v n).getLsbD j = v.getLsbD (n + j) := by
  unfold shr64
  split
  · simp [BitVec.getLsbD_ushiftRight]
  · have : 64 ≤ n + j := by omega
    simp [this]

/-! ### The transforms -/

/-- A transform that answers found every entry it read, and writes the response alone. -/
theorem respondWord_next {r : Option Word} {s t : State} (h : respondWord r s = .next t) :
    ∃ num, r = some num ∧ t = s.respond .ok num := by
  cases r with
  | none => simp [respondWord] at h
  | some num => exact ⟨num, rfl, (Host.Outcome.next.inj h).symm⟩

end Sys2Proof.Machine
end

