-- ==== Sys2Proof/Laws/Loops.lean ====
section
/-! SUPPORT. What the two loops can do: BUILD's over the table's entries and the transforms' over the rounds; and the
table that holds given words. -/

namespace Sys2Proof.Machine

/-! ### The table that holds given words -/

/-- Every entry of it reads as its word. -/
@[simp] theorem Memory.read_ofTable (t : Table) (k : MaskIndex) : Memory.read (Memory.ofTable t) k.val = some t[k] := by
  have go : ∀ l : List MaskIndex, k ∈ l → Memory.read (l.map fun k => (k.val, t[k])) k.val = some t[k] := by
    intro l
    induction l with
    | nil => simp
    | cons j l ih =>
      intro h
      simp only [List.map_cons, Memory.read]
      by_cases e : j.val = k.val
      · rw [if_pos e, Fin.ext e]
      · rw [if_neg e]
        exact ih ((List.mem_cons.1 h).resolve_left fun e' => e (congrArg Fin.val e'.symm))
  exact go _ (List.mem_finRange _)

/-- It has the canonical form (20_memory.md R30; log 2). -/
theorem Memory.ofTable_wf (t : Table) : Memory.wf (Memory.ofTable t) = true := by
  have go : ∀ l : List MaskIndex, l.Pairwise (· < ·) → Memory.wf (l.map fun k => (k.val, t[k])) = true := by
    intro l h
    induction l with
    | nil => rfl
    | cons k l ih =>
      obtain ⟨hk, hl⟩ := List.pairwise_cons.1 h
      refine Memory.wf_cons.2 ⟨k.isLt, ?_, ih hl⟩
      intro cell hc
      obtain ⟨j, hj, rfl⟩ := List.mem_map.1 hc
      exact hk j hj
  exact go _ (List.pairwise_lt_finRange 128)

/-! ### BUILD's loop -/

/-- The loop keeps the canonical form (20_memory.md R33; log 2). -/
theorem buildLoop_wf (a b c : Amount) (ks : List MaskIndex) (w : Word) {m : Memory} (h : Memory.wf m = true) :
    Memory.wf (buildLoop a b c ks w m).2 = true := by
  induction ks generalizing w m with
  | nil => exact h
  | cons k ks ih => exact ih _ (Memory.write_wf h k.isLt _)

/-- The loop writes only the entries it is given (41_table_build.md R82). -/
theorem buildLoop_read_other (a b c : Amount) (ks : List MaskIndex) (w : Word) (m : Memory) {j : Nat}
    (h : ∀ k ∈ ks, j ≠ k.val) : Memory.read (buildLoop a b c ks w m).2 j = Memory.read m j := by
  induction ks generalizing w m with
  | nil => rfl
  | cons k ks ih =>
    rw [buildLoop, ih _ _ fun k' hk' => h k' (List.mem_cons_of_mem _ hk'),
      Memory.read_write_other m (h k List.mem_cons_self)]

/-! ### The transforms' loop -/

/-- Where every entry the stages read holds a value, the loop is the pure transform (42_mixing_pipeline.md R97). -/
theorem runStages_of_reads {m : Memory} {t : Table} {is : List Round} {x : Word}
    (h : ∀ k ∈ readIndices t is x, Memory.read m k.val = some t[k]) : runStages m is x = some (stages t is x) := by
  induction is generalizing x with
  | nil => rfl
  | cons i is ih =>
    simp only [readIndices, List.mem_cons, forall_eq_or_imp] at h
    have e : stageRead m i x = some (stage t i x) := by
      unfold stageRead
      rw [h.1]
      rfl
    simp only [runStages, e]
    rw [ih h.2]
    rfl

end Sys2Proof.Machine
end

