-- ==== Sys2Proof/Laws/PerInstr.lean ====
section
/-! SUPPORT. Statements for all commands, one lemma per constructor. -/

namespace Sys2Proof.Laws

/-- A command's bundle carries its opcode in `cmd[2:0]` and zero in every field its format does not use
(30_encoding.md R47, R48). -/
def EncodedFields.Statement (i : Instr) : Prop :=
  cmdOp (encode i) = i.opcode ∧
    (i.format.usesX = false → cmdX (encode i) = 0#64) ∧
    (i.format.usesAmounts = false → cmdA (encode i) = 0#32 ∧ cmdB (encode i) = 0#32 ∧ cmdC (encode i) = 0#32)

/-- The opcode field of an assembled bundle. -/
@[simp] theorem cmdOp_bundleOf (op : BitVec 3) (x : Word) (a b c : Amount) : cmdOp (bundleOf op x a b c) = op := by
  apply BitVec.eq_of_getLsbD_eq
  intro j hj
  simp only [cmdOp, bundleOf, BitVec.getLsbD_extractLsb', BitVec.getLsbD_append, Nat.zero_add, hj, decide_true,
    Bool.true_and, if_true]

/-- The amounts of an assembled bundle whose amounts are zero. -/
theorem amounts_bundleOf_zero (op : BitVec 3) (x : Word) :
    cmdA (bundleOf op x 0#32 0#32 0#32) = 0#32 ∧ cmdB (bundleOf op x 0#32 0#32 0#32) = 0#32 ∧
      cmdC (bundleOf op x 0#32 0#32 0#32) = 0#32 := by
  refine ⟨?_, ?_, ?_⟩ <;>
  · apply BitVec.eq_of_getLsbD_eq
    intro j hj
    simp only [cmdA, cmdB, cmdC, bundleOf, BitVec.getLsbD_extractLsb', BitVec.getLsbD_append, hj, decide_true,
      Bool.true_and, BitVec.getLsbD_zero]
    repeat' split
    all_goals first | rfl | omega

theorem EncodedFields.gload (x : Word) (a b c : Amount) : EncodedFields.Statement (.gload x a b c) :=
  ⟨cmdOp_bundleOf .., by simp [Instr.format, Format.usesX], by simp [Instr.format, Format.usesAmounts]⟩

theorem EncodedFields.gadv : EncodedFields.Statement .gadv := by
  refine ⟨?_, ?_, ?_⟩ <;> decide

theorem EncodedFields.build : EncodedFields.Statement .build := by
  refine ⟨?_, ?_, ?_⟩ <;> decide

theorem EncodedFields.map (x : Word) : EncodedFields.Statement (.map x) :=
  ⟨cmdOp_bundleOf .., by simp [Instr.format, Format.usesX], fun _ => amounts_bundleOf_zero ..⟩

theorem EncodedFields.unmap (x : Word) : EncodedFields.Statement (.unmap x) :=
  ⟨cmdOp_bundleOf .., by simp [Instr.format, Format.usesX], fun _ => amounts_bundleOf_zero ..⟩

theorem EncodedFields.reserved0 : EncodedFields.Statement .reserved0 := by
  refine ⟨?_, ?_, ?_⟩ <;> decide

theorem EncodedFields.reserved6 : EncodedFields.Statement .reserved6 := by
  refine ⟨?_, ?_, ?_⟩ <;> decide

theorem EncodedFields.reserved7 : EncodedFields.Statement .reserved7 := by
  refine ⟨?_, ?_, ?_⟩ <;> decide

end Sys2Proof.Laws
end

