-- ==== Sys2Proof/Laws/Run.lean ====
section
/-! SUPPORT. Runs of the machine and sequences of commands. -/

namespace Sys2Proof.Machine

/-- The model's `run` is the host's, on this machine. -/
theorem run_eq_core_run (n : Nat) (s : State) : run n s = Host.Core.run Sys2Proof.core n s := by
  induction n generalizing s with
  | zero => rfl
  | succ n ih =>
    cases h : step s with
    | next t =>
      have hc : Sys2Proof.core.step s = .next t := h
      simp only [run, h, Host.Core.run, hc]
      exact ih t
    | fault f =>
      have hc : Sys2Proof.core.step s = .fault f := h
      simp only [run, h, Host.Core.run, hc]
      rfl
    | refused r =>
      have hc : Sys2Proof.core.step s = .refused r := h
      simp only [run, h, Host.Core.run, hc]
      rfl

/-- A run whose first step answers goes on from there. -/
theorem run_succ_of_next {s t : State} (h : step s = .next t) (n : Nat) : run (n + 1) s = run n t := by
  simp [run, h]

/-- A sequence whose first command answers goes on from there. -/
theorem execAll_cons_of_next {i : Instr} {s t : State} (h : exec i s = .next t) (is : List Instr) :
    execAll (i :: is) s = execAll is t := by
  simp [execAll, h]

/-- A sequence in two parts, the first of which answers. -/
theorem execAll_append_of_next {is js : List Instr} {s t : State} (h : execAll is s = .next t) :
    execAll (is ++ js) s = execAll js t := by
  induction is generalizing s with
  | nil =>
    cases h
    rfl
  | cons i is ih =>
    simp only [List.cons_append, execAll] at h ⊢
    cases hi : exec i s with
    | next u => rw [hi] at h; exact ih h
    | fault f => rw [hi] at h; cases h
    | refused r => rw [hi] at h; cases h

/-- What the host presents next changes nothing of what a command does. -/
theorem exec_setPort {i : Instr} {s t : State} (h : exec i s = .next t) (p : List HostEvent) :
    exec i (s.setPort p) = .next (t.setPort p) := by
  have hrej : ∀ q body, s.phase ≠ q → requirePhase q s body = .next t →
      ∀ body', requirePhase q (s.setPort p) body' = .next (t.setPort p) := by
    intro q body hq hb body'
    rw [requirePhase_of_ne hq] at hb
    cases hb
    exact requirePhase_of_ne (s := s.setPort p) hq body'
  cases i with
  | gload x a b c =>
    by_cases hq : s.phase = .empty
    · simp only [exec, execGload, requirePhase_of_eq hq] at h
      cases h
      exact requirePhase_of_eq (s := s.setPort p) hq _
    · exact hrej _ _ hq h _
  | gadv =>
    by_cases hq : s.phase = .seeded
    · simp only [exec, execGadv, requirePhase_of_eq hq] at h
      obtain ⟨w, a, b, c, hw, ha, hb, hc, hn⟩ := readGen_next h
      cases hn
      exact (requirePhase_of_eq (s := s.setPort p) hq _).trans (readGen_some (s := s.setPort p) hw ha hb hc _)
    · exact hrej _ _ hq h _
  | build =>
    by_cases hq : s.phase = .seeded
    · simp only [exec, execBuild, requirePhase_of_eq hq] at h
      obtain ⟨w, a, b, c, hw, ha, hb, hc, hn⟩ := readGen_next h
      have e := (requirePhase_of_eq (s := s.setPort p) hq _).trans (readGen_some (s := s.setPort p) hw ha hb hc
        fun w a b c =>
          let done := buildLoop a b c (List.finRange 128) w s.masks
          .next (((((s.setPort p).setGen done.1).setMasks done.2).setPhase .built).respond .ok 0#64))
      refine Eq.trans e ?_
      generalize buildLoop a b c (List.finRange 128) w s.masks = done at hn ⊢
      cases hn
      rfl
    · exact hrej _ _ hq h _
  | map x =>
    by_cases hq : s.phase = .built
    · simp only [exec, execMap, requirePhase_of_eq hq] at h
      obtain ⟨num, hn, rfl⟩ := respondWord_next h
      refine (requirePhase_of_eq (s := s.setPort p) hq _).trans ?_
      rw [State.setPort_masks, hn]
      rfl
    · exact hrej _ _ hq h _
  | unmap x =>
    by_cases hq : s.phase = .built
    · simp only [exec, execUnmap, requirePhase_of_eq hq] at h
      obtain ⟨num, hn, rfl⟩ := respondWord_next h
      refine (requirePhase_of_eq (s := s.setPort p) hq _).trans ?_
      rw [State.setPort_masks, hn]
      rfl
    · exact hrej _ _ hq h _
  | reserved0 => cases h; rfl
  | reserved6 => cases h; rfl
  | reserved7 => cases h; rfl

end Sys2Proof.Machine
end

