-- ==== Sys2Proof/Tests/Slice0.lean ====
section
/-! SUPPORT. Tests with values the spec gives (30_encoding.md section 8, 95_test_vectors.md), and for every statement
with hypotheses a witness that meets them. -/

namespace Sys2Proof.Tests

open Sys2Proof.Machine

/-! ### Small states -/

/-- The response a command gives. -/
def rspOf : Result → Option Response
  | .next t => t.rsp
  | .fault _ => none
  | .refused _ => none

/-- One field of the state a command leaves. -/
def after {α : Type} (f : State → α) : Result → Option α
  | .next t => some (f t)
  | .fault _ => none
  | .refused _ => none

/-- SEEDED after `GLOAD 1, 13, 7, 17`. -/
def seeded1 : State :=
  { State.reset with phase := .seeded, state := some 1#64, shiftA := some 13#32, shiftB := some 7#32, shiftC := some 17#32 }

/-- The table of seed 1. -/
def table1 : Table := table 1#64 13#32 7#32 17#32

/-- BUILT after `BUILD` in that state. -/
def built1 : State :=
  { seeded1 with phase := .built, state := some (tableState 1#64 13#32 7#32 17#32), masks := Memory.ofTable table1 }

/-- EMPTY after a rejected command. -/
def empty1 : State := { State.reset with rsp := some ⟨.phase, 0#64⟩ }

/-- The table of zeros. -/
def zeros : Table := Vector.replicate 128 0#64

/-- A table of zeros except for the bits the pipeline never looks at. -/
def ownBits : Table := Vector.ofFn fun k => bitWord (roundOf k)

/-- BUILT with a table of zeros. -/
def built0 : State := { seeded1 with phase := .built, state := some 0#64, masks := Memory.ofTable zeros }

theorem built1_holds : Memory.holds built1.masks table1 := Memory.read_ofTable table1

theorem built0_holds : Memory.holds built0.masks zeros := Memory.read_ofTable zeros

theorem seeded1_holdsGen : seeded1.holdsGen 1#64 13#32 7#32 17#32 := ⟨rfl, rfl, rfl, rfl⟩

theorem empty1_inv : empty1.Inv where
  masksWf := rfl
  generatorAbsent _ := ⟨rfl, rfl, rfl, rfl⟩
  generatorPresent h := absurd rfl h
  tableAbsent _ := rfl
  tableBuilt h := nomatch h

theorem seeded1_inv : seeded1.Inv where
  masksWf := rfl
  generatorAbsent h := nomatch h
  generatorPresent _ := ⟨_, _, _, _, seeded1_holdsGen⟩
  tableAbsent _ := rfl
  tableBuilt h := nomatch h

theorem built1_inv : built1.Inv where
  masksWf := Memory.ofTable_wf table1
  generatorAbsent h := nomatch h
  generatorPresent _ := ⟨_, _, _, _, rfl, rfl, rfl, rfl⟩
  tableAbsent h := absurd rfl h
  tableBuilt _ := ⟨1#64, 13#32, 7#32, 17#32, rfl, rfl, rfl, rfl, rfl⟩

/-! ### Decoding: bundles written out from 30_encoding.md section 8 and 95_test_vectors.md section 6 -/

theorem test_decode_gload :
    decode 0x8800000038000000680000000000000009#163 = .gload 1#64 13#32 7#32 17#32 := by decide
theorem test_decode_gadv : decode 0x2#163 = .gadv := by decide
theorem test_decode_build : decode 0x3#163 = .build := by decide
theorem test_decode_map : decode 0xC#163 = .map 1#64 := by decide
theorem test_decode_unmap : decode 0x47CB2AAA15BDECC3D#163 = .unmap 0x8F9655542B7BD987#64 := by decide
theorem test_decode_reserved0 : decode 0x0#163 = .reserved0 := by decide
theorem test_decode_reserved6 : decode 0x6#163 = .reserved6 := by decide
/-- R52: a reserved opcode whose other bits look like those of GLOAD. -/
theorem test_decode_reserved6_loaded : decode 0x880000003800000068000000000000000E#163 = .reserved6 := by decide
/-- R49: the bundle of 163 ones. -/
theorem test_decode_reserved7 : decode 0x7FFFFFFFFFFFFFFFFFFFFFFFFFFFFFFFFFFFFFFFF#163 = .reserved7 := by decide
/-- R47: GADV with every ignored bit set. -/
theorem test_decode_gadv_ignored : decode 0x7FFFFFFFFFFFFFFFFFFFFFFFFFFFFFFFFFFFFFFFA#163 = .gadv := by decide
theorem test_encode_gload :
    encode (.gload 1#64 13#32 7#32 17#32) = 0x8800000038000000680000000000000009#163 := by decide
theorem test_encode_unmap : encode (.unmap 0x8F9655542B7BD987#64) = 0x47CB2AAA15BDECC3D#163 := by decide
theorem test_tableWord : decodeTableWord 8 0x3 = some .build := by decide

/-! ### What the assembler refuses (R54): one line for each check, and lines that pass at the bound -/

theorem test_wf_gload_seed : (AsmLine.gload (2 ^ 64) 13 7 17).wellFormed = false := by decide
theorem test_wf_gload_a : (AsmLine.gload 1 (2 ^ 32) 7 17).wellFormed = false := by decide
theorem test_wf_gload_b : (AsmLine.gload 1 13 (2 ^ 32) 17).wellFormed = false := by decide
theorem test_wf_gload_c : (AsmLine.gload 1 13 7 (2 ^ 32)).wellFormed = false := by decide
theorem test_wf_map : (AsmLine.map (2 ^ 64)).wellFormed = false := by decide
theorem test_wf_unmap : (AsmLine.unmap (2 ^ 64)).wellFormed = false := by decide
theorem test_wf_new_seed : (AsmLine.new (2 ^ 64) 13 7 17).wellFormed = false := by decide
theorem test_wf_new_a : (AsmLine.new 1 (2 ^ 32) 7 17).wellFormed = false := by decide
theorem test_wf_new_b : (AsmLine.new 1 13 (2 ^ 32) 17).wellFormed = false := by decide
theorem test_wf_new_c : (AsmLine.new 1 13 7 (2 ^ 32)).wellFormed = false := by decide
theorem test_wf_bounds : (AsmLine.gload (2 ^ 64 - 1) (2 ^ 32 - 1) 0 (2 ^ 32 - 1)).wellFormed = true := by decide
theorem test_wf_zero_seed : (AsmLine.new 0 0 0 0).wellFormed = true := by decide

/-! ### The assembler's text (R54, R55) -/

theorem test_asm_new : assemble "NEW 1, 13, 7, 17 ; the constructor\nMAP 0x1".toList =
    some [.gload 1#64 13#32 7#32 17#32, .build, .map 1#64] := by decide +kernel
theorem test_asm_comment : assemble "; nothing\n\nUNMAP 0x8F96_5554_2B7B_D987\nGADV".toList =
    some [.unmap 0x8F9655542B7BD987#64, .gadv] := by decide +kernel
theorem test_asm_refused : assemble "GLOAD 1, 13, 7, 4294967296".toList = none := by decide +kernel
theorem test_asm_no_syntax : assemble "MAP 1, 2".toList = none := by decide +kernel

/-! ### One step of each command: 95_test_vectors.md sections 2, 3, 5 and 6.4 -/

theorem test_gload_rsp : rspOf (exec (.gload 2#64 13#32 7#32 17#32) State.reset) = some ⟨.ok, 0#64⟩ := by decide
theorem test_gload_writes :
    after (fun t => (t.phase, t.state, t.shiftA, t.shiftB, t.shiftC)) (exec (.gload 2#64 13#32 7#32 17#32) State.reset) =
      some (.seeded, some 2#64, some 13#32, some 7#32, some 17#32) := by decide
/-- VG1. -/
theorem test_gadv : rspOf (exec .gadv seeded1) = some ⟨.ok, 0x40822041#64⟩ := by decide +kernel
/-- VG3, VG4, VG5, VG8: distinct amounts, truncation, and `b = 64`. -/
theorem test_adv_vectors :
    adv 1#64 1#32 1#32 1#32 = 6#64 ∧ adv 0xFFFFFFFFFFFFFFFF#64 13#32 7#32 17#32 = 0x3F801FC0#64 ∧
    adv 0x8000000000000000#64 13#32 7#32 17#32 = 0x8100000000000000#64 ∧
    adv 5#64 13#32 64#32 17#32 = 0x1400AA005#64 := by decide +kernel
/-- Section 3: entries 0 and 127, and the word left in `state`. -/
theorem test_build :
    after (fun t => (t.phase, t.state, Memory.read t.masks 0, Memory.read t.masks 127)) (exec .build seeded1) =
      some (.built, some 0x2B9CC76C10B4C6AF#64, some 0x0000000040822040#64, some 0x2B9CC76C10B4C6AF#64) := by
  decide +kernel
/-- Section 6.4. -/
theorem test_map : rspOf (exec (.map 0#64) built1) = some ⟨.ok, 0x8F9655542B7BD987#64⟩ := by decide +kernel
theorem test_map_1 : rspOf (exec (.map 1#64) built1) = some ⟨.ok, 0x976D20E46F48B3CE#64⟩ := by decide +kernel
theorem test_unmap : rspOf (exec (.unmap 0#64) built1) = some ⟨.ok, 0x0B7B4A45478ED02C#64⟩ := by decide +kernel
theorem test_unmap_map_1 : rspOf (exec (.unmap 0x976D20E46F48B3CE#64) built1) = some ⟨.ok, 1#64⟩ := by decide +kernel
/-- Section 4.1, the first stage's result. -/
theorem test_stage : stage table1 0 0#64 = 0xFFFFFFFFBF7DDFBE#64 := by decide +kernel
theorem test_reserved0 : rspOf (exec .reserved0 seeded1) = some ⟨.illegal, 0#64⟩ := by decide
theorem test_reserved6 : rspOf (exec .reserved6 State.reset) = some ⟨.illegal, 0#64⟩ := by decide
theorem test_reserved7 : rspOf (exec .reserved7 seeded1) = some ⟨.illegal, 0#64⟩ := by decide
/-- Section 6.4, the EMPTY column. -/
theorem test_rejected_in_empty :
    [Instr.gadv, .build, .map 0#64, .unmap 0#64].map (fun i => rspOf (exec i State.reset)) =
      List.replicate 4 (some ⟨.phase, 0#64⟩) := by decide
/-- Section 6.4, the SEEDED column. -/
theorem test_rejected_in_seeded :
    [Instr.gload 2#64 13#32 7#32 17#32, .map 0#64, .unmap 0#64].map (fun i => rspOf (exec i seeded1)) =
      List.replicate 3 (some ⟨.phase, 0#64⟩) := by decide
/-- Section 6.4, the BUILT column. -/
theorem test_rejected_in_built :
    [Instr.gload 2#64 13#32 7#32 17#32, .gadv, .build].map (fun i => rspOf (exec i built1)) =
      List.replicate 3 (some ⟨.phase, 0#64⟩) := by decide
/-- Section 7, P2, the column `rsp`. -/
theorem test_rsp_bundle : Response.toBundle ⟨.ok, 0x8F9655542B7BD987#64⟩ = 0x23E595550ADEF661C#66 := by decide
/-- The host's word, run as the first command after reset. -/
theorem test_withFetchWord : after (fun t => (t.phase, t.state, t.shiftC, t.port))
    (step (State.reset.withFetchWord 168 0x8800000038000000680000000000000009)) =
      some (.seeded, some 1#64, some 17#32, []) := by decide
/-- R140. -/
theorem test_reset_step : after (fun t => (t.phase, t.state, t.shiftA, t.masks))
    (step { seeded1 with port := [.reset] }) = some (.empty, none, none, []) := by decide

/-! ### Witnesses: values that meet every hypothesis of a statement, clause by clause -/

theorem witness_BundleFieldsAtTheirBits :
    cmdOp 0x8800000038000000680000000000000009#163 = 1#3 ∧ cmdOp 0xC#163 = 4#3 ∧
    cmdOp 0x47CB2AAA15BDECC3D#163 = 5#3 ∧ 2 < 3 ∧ 63 < 64 ∧ 31 < 32 := by decide

theorem witness_OpcodeMapSelectsCommand :
    [0x0#163, 0x9#163, 0x2#163, 0x3#163, 0xC#163, 0x5#163, 0xE#163, 0x7FFFFFFFFFFFFFFFFFFFFFFFFFFFFFFFFFFFFFFFF#163].map
      (fun cmd => cmd.toNat % 8) = [0, 1, 2, 3, 4, 5, 6, 7] := by decide

/-- Two bundles may stand in the statement's first part: its three premises. -/
def agreeInUsed (cmd cmd' : Bundle) : Bool :=
  decide (cmdOp cmd = cmdOp cmd' ∧
    (cmdOp cmd = 1#3 → cmdX cmd = cmdX cmd' ∧ cmdA cmd = cmdA cmd' ∧ cmdB cmd = cmdB cmd' ∧ cmdC cmd = cmdC cmd') ∧
    (cmdOp cmd = 4#3 ∨ cmdOp cmd = 5#3 → cmdX cmd = cmdX cmd'))

/-- Different bundles of format N, of format X (MAP and UNMAP) and reserved; of format G, a bundle agrees only with
itself. -/
theorem witness_IgnoredFieldsHaveNoEffect :
    agreeInUsed 0x2#163 0x7FFFFFFFFFFFFFFFFFFFFFFFFFFFFFFFFFFFFFFFA#163 = true ∧
    agreeInUsed 0xC#163 0x880000003800000068000000000000000C#163 = true ∧
    agreeInUsed 0xD#163 0x880000003800000068000000000000000D#163 = true ∧
    agreeInUsed 0x6#163 0xE#163 = true ∧ agreeInUsed 0x9#163 0x9#163 = true ∧
    cmdOp 0x3#163 = 3#3 ∧ cmdOp 0x9#163 = 1#3 := by decide

theorem witness_ReservedOpcodesAreIllegal :
    State.port { seeded1 with port := [.command 0xE#163, .reset] } = .command 0xE#163 :: [.reset] ∧
    cmdOp 0x0#163 = 0#3 ∧ cmdOp 0xE#163 = 6#3 ∧ cmdOp 0x7FFFFFFFFFFFFFFFFFFFFFFFFFFFFFFFFFFFFFFFF#163 = 7#3 :=
  ⟨rfl, by decide, by decide, by decide⟩

/-- The invariant in each of the three phases. -/
theorem witness_EveryCommandIsAnswered :
    (empty1.Inv ∧ empty1.phase = .empty) ∧ (seeded1.Inv ∧ seeded1.phase = .seeded) ∧
    (built1.Inv ∧ built1.phase = .built ∧ Memory.holds built1.masks table1) ∧ (3#66 : RspBundle).toNat % 4 = 3 :=
  ⟨⟨empty1_inv, rfl⟩, ⟨seeded1_inv, rfl⟩, ⟨built1_inv, rfl, built1_holds⟩, rfl⟩

theorem witness_NoAbsentValueIsEverRead : empty1.Inv ∧ seeded1.Inv ∧ built1.Inv := ⟨empty1_inv, seeded1_inv, built1_inv⟩

theorem witness_StepRunsDecodedCommand :
    State.port { State.reset with port := [.command 0x2#163, .reset] } = .command 0x2#163 :: [.reset] ∧
    step { State.reset with port := [.command 0x2#163, .reset] } =
      .next { State.reset with port := [.reset], rsp := some ⟨.phase, 0#64⟩ } ∧
    State.port { seeded1 with port := [.reset, .command 0x2#163] } = .reset :: [.command 0x2#163] := ⟨rfl, rfl, rfl⟩

theorem witness_IdleStepChangesNothing : seeded1.port = [] ∧ State.reset.port = [] := by decide

theorem witness_ResetEmptiesTheBlock :
    State.port { built0 with port := [.reset] } = [.reset] ∧ seeded1.phase ≠ .empty ∧
    (after State.phase (exec (.map 0#64) seeded1)).isSome ∧
    built1.phase = .built ∧ (after State.phase (exec .build built1)).isSome := by decide

theorem witness_ResetHoldsNoValue :
    State.reset.phase = .empty ∧ (Instr.gadv = .gadv ∨ Instr.gadv = .build ∨ isTransform .gadv = true) ∧
    isTransform (.map 0#64) = true ∧ isTransform (.unmap 0#64) = true := by decide

theorem witness_GloadLoadsGenerator : State.reset.phase = .empty ∧ seeded1.phase ≠ .empty ∧ built1.phase ≠ .empty := by
  decide

theorem witness_GadvAdvancesGenerator :
    seeded1.phase = .seeded ∧ seeded1.holdsGen 1#64 13#32 7#32 17#32 ∧ State.reset.phase ≠ .seeded ∧ built1.phase ≠ .seeded :=
  ⟨rfl, seeded1_holdsGen, nofun, nofun⟩

theorem witness_AdvIsThreeXorShifts : seeded1.phase = .seeded ∧ seeded1.holdsGen 1#64 13#32 7#32 17#32 :=
  ⟨rfl, seeded1_holdsGen⟩

/-- Amounts of exactly 64, of the largest 32-bit value, and of 0 in each place. -/
theorem witness_ShiftAmountCorners :
    64 ≤ 64 ∧ 64 ≤ 4294967295 ∧ (0#32 = 0#32 ∨ 7#32 = 0#32 ∨ 17#32 = 0#32) ∧
    (13#32 = 0#32 ∨ 0#32 = 0#32 ∨ 17#32 = 0#32) ∧ (13#32 = 0#32 ∨ 7#32 = 0#32 ∨ 0#32 = 0#32) := by decide

theorem witness_ZeroSeedIsFixedPoint : State.reset.phase = .empty := by decide

theorem witness_AdvIsBijective :
    1 ≤ 1 ∧ 64 ≤ 64 ∧ 1#32 ≠ 0#32 ∧ 64#32 ≠ 0#32 ∧ 4294967295#32 ≠ 0#32 ∧ 0x8000000000000000#64 ≠ 0#64 := by decide

theorem witness_AdvanceStepsReturnTheSequence : State.reset.phase = .empty := by decide

/-- The last entry, its own bit and another; and the two entries of the last round. -/
theorem witness_KeepClearsOneBit :
    63 < 64 ∧ (127 : MaskIndex).val >>> 1 = 63 ∧ (126 : MaskIndex).val = 2 * (63 : Round).val ∧
    (127 : MaskIndex).val = 2 * (63 : Round).val + 1 := by decide

theorem witness_BuildFillsTable :
    seeded1.phase = .seeded ∧ seeded1.holdsGen 1#64 13#32 7#32 17#32 ∧ seeded1.masks = [] ∧ 128 ≤ 128 ∧
    State.reset.phase ≠ .seeded ∧ built1.phase ≠ .seeded :=
  ⟨rfl, seeded1_holdsGen, rfl, Nat.le_refl _, nofun, nofun⟩

/-- Two different tables that agree but for every entry's own bit. -/
theorem witness_TableBitsAreWordBits :
    zeros[(127 : MaskIndex)] ≠ ownBits[(127 : MaskIndex)] ∧
    ∀ (k : MaskIndex) (j : Nat), j < 64 → j ≠ k.val >>> 1 → zeros[k].getLsbD j = ownBits[k].getLsbD j := by
  constructor
  · decide +kernel
  · intro k j _ h
    simp [zeros, ownBits, bitWord_getLsbD, roundOf, h]

theorem witness_StageKeepsOwnBit :
    ∀ (k : MaskIndex) (j : Nat), j < 64 → j ≠ k.val >>> 1 → zeros[k].getLsbD j = ownBits[k].getLsbD j :=
  witness_TableBitsAreWordBits.2

theorem witness_ConstructionAfterGadv : empty1.phase = .empty ∧ State.reset.phase = .empty := by decide

theorem witness_ZeroSeedBuildsZeroTable : empty1.phase = .empty := by decide

/-- Two blocks in EMPTY that differ in everything else. -/
theorem witness_ConstructionIsDeterministic :
    State.reset.phase = .empty ∧ State.phase { built0 with phase := .empty } = .empty := by decide

theorem witness_CanonicalTablesThatReadAlikeAreEqual :
    Memory.wf (Memory.write [(127, 5#64)] 0 9#64) = true ∧ Memory.wf [(0, 9#64), (127, 5#64)] = true ∧
    ∀ k, Memory.read (Memory.write [(127, 5#64)] 0 9#64) k = Memory.read [(0, 9#64), (127, 5#64)] k :=
  ⟨by decide, by decide, fun _ => rfl⟩

/-- The first and the last round, for either value of the selecting bit. -/
theorem witness_StageIsSingleExpression :
    (127 : MaskIndex).val = 2 * (63 : Round).val + (BitVec.getLsbD 0x8000000000000000#64 63).toNat ∧
    (0 : MaskIndex).val = 2 * (0 : Round).val + (BitVec.getLsbD 0#64 0).toNat ∧ 62 < 64 ∧ 62 ≠ (63 : Round).val := by decide

theorem witness_StageFlipsWhereMaskIsZero : 0 < 64 ∧ 63 < 64 := by decide

theorem witness_UnmapInvertsMap : built1.phase = .built ∧ Memory.holds built1.masks table1 := ⟨rfl, built1_holds⟩

theorem witness_ZeroTableMapsToComplement : ∀ k : MaskIndex, zeros[k] = 0#64 := by
  intro k
  simp [zeros]

theorem witness_TransformsHaveClosedForm : ∀ k : MaskIndex, zeros[k].getLsbD (k.val >>> 1) = false := by
  intro k
  simp [zeros]

theorem witness_TransformsAreAffine :
    (126 : MaskIndex).val = 2 * (63 : Round).val ∧ (127 : MaskIndex).val = 2 * (63 : Round).val + 1 := by decide

/-- BUILT with a table of zeros that lacks entry `k`. -/
def lacking (k : Nat) : State := { built0 with masks := (Memory.ofTable zeros).filter fun cell => cell.1 != k }

/-- The third clause in a table that lacks an entry MAP 0 does not read. -/
theorem witness_MapAnswersMapf :
    built1.phase = .built ∧ Memory.holds built1.masks table1 ∧ seeded1.phase ≠ .built ∧ State.reset.phase ≠ .built ∧
    (lacking 1).phase = .built ∧ Memory.read (lacking 1).masks 1 = none ∧
    ∀ k ∈ readIndices zeros rounds 0#64, Memory.read (lacking 1).masks k.val = some zeros[k] :=
  ⟨rfl, built1_holds, nofun, nofun, rfl, by decide +kernel, by decide +kernel⟩

/-- The third clause in a table that lacks an entry UNMAP 0 does not read. -/
theorem witness_UnmapAnswersUnmapf :
    built1.phase = .built ∧ Memory.holds built1.masks table1 ∧ seeded1.phase ≠ .built ∧ State.reset.phase ≠ .built ∧
    (lacking 127).phase = .built ∧ Memory.read (lacking 127).masks 127 = none ∧
    ∀ k ∈ readIndices zeros rounds.reverse 0#64, Memory.read (lacking 127).masks k.val = some zeros[k] :=
  ⟨rfl, built1_holds, nofun, nofun, rfl, by decide +kernel, by decide +kernel⟩

theorem witness_TransformsAreRepeatable :
    built1.phase = .built ∧ Memory.holds built1.masks table1 ∧
    ∀ i ∈ [Instr.map 0#64, .unmap 1#64, .map 0#64], isTransform i = true :=
  ⟨rfl, built1_holds, by decide⟩

theorem witness_AcceptanceMatrix :
    (empty1.Inv ∧ empty1.phase = .empty) ∧ (seeded1.Inv ∧ seeded1.phase = .seeded) ∧ (built1.Inv ∧ built1.phase = .built) :=
  ⟨⟨empty1_inv, rfl⟩, ⟨seeded1_inv, rfl⟩, ⟨built1_inv, rfl⟩⟩

/-- A rejection with each cause. -/
theorem witness_RejectionWritesNothing :
    exec .gadv State.reset = .next { State.reset with rsp := some ⟨.phase, 0#64⟩ } ∧
    exec .reserved7 seeded1 = .next { seeded1 with rsp := some ⟨.illegal, 0#64⟩ } ∧
    Status.phase ≠ .ok ∧ Status.illegal ≠ .ok := ⟨rfl, rfl, nofun, nofun⟩

theorem witness_RejectionIsNotSticky :
    exec (.map 0#64) seeded1 = .next { seeded1 with rsp := some ⟨.phase, 0#64⟩ } ∧ Status.phase ≠ .ok := ⟨rfl, nofun⟩

theorem witness_CausesAreDisjoint :
    exec .build State.reset = .next { State.reset with rsp := some ⟨.phase, 0#64⟩ } ∧
    exec .reserved0 seeded1 = .next { seeded1 with rsp := some ⟨.illegal, 0#64⟩ } := ⟨rfl, rfl⟩

theorem witness_LifecycleIsOneWay :
    exec (.map 0#64) seeded1 = .next { seeded1 with rsp := some ⟨.phase, 0#64⟩ } ∧
    step { seeded1 with port := [.reset] } = .next State.reset ∧ seeded1.phase ≠ .empty ∧ State.reset.phase = .empty :=
  ⟨rfl, rfl, nofun, rfl⟩

/-- A command of each kind the statement tells apart answers: GLOAD, GADV, BUILD and none of them. -/
theorem witness_CommandsWriteOnlyTheirElements :
    (after State.port (exec (.gload 2#64 13#32 7#32 17#32) State.reset)).isSome ∧
    (after State.port (exec .gadv seeded1)).isSome ∧ (after State.port (exec .build seeded1)).isSome ∧
    (after State.port (exec (.map 0#64) built0)).isSome := by decide +kernel

theorem witness_BuiltBlockIsReadOnly :
    built1.phase = .built ∧ exec .gadv built1 = .next { built1 with rsp := some ⟨.phase, 0#64⟩ } := ⟨rfl, rfl⟩

theorem witness_BuiltResponsesIgnoreGenerator : built1.phase = .built ∧ Memory.holds built1.masks table1 :=
  ⟨rfl, built1_holds⟩

theorem witness_StepKeepsTableForm :
    Memory.wf built1.masks = true ∧ step { built1 with port := [.command 0x2#163] } =
      .next { built1 with rsp := some ⟨.phase, 0#64⟩ } :=
  ⟨Memory.ofTable_wf table1, rfl⟩

theorem witness_BuiltTableHasClearedBits : built1.Inv ∧ built1.phase = .built := ⟨built1_inv, rfl⟩

/-- SEEDED with each register absent in turn, those before it present; and BUILT with an empty table. -/
def noState : State := { seeded1 with state := none }
def noShiftA : State := { seeded1 with shiftA := none }
def noShiftB : State := { seeded1 with shiftB := none }
def noShiftC : State := { seeded1 with shiftC := none }
def noTable : State := { seeded1 with phase := .built }

theorem witness_AbsentReadIsAnError :
    (noState.phase = .seeded ∧ noState.state = none) ∧
    (noShiftA.phase = .seeded ∧ noShiftA.state = some 1#64 ∧ noShiftA.shiftA = none) ∧
    (noShiftB.phase = .seeded ∧ noShiftB.state = some 1#64 ∧ noShiftB.shiftA = some 13#32 ∧ noShiftB.shiftB = none) ∧
    (noShiftC.phase = .seeded ∧ noShiftC.state = some 1#64 ∧ noShiftC.shiftA = some 13#32 ∧ noShiftC.shiftB = some 7#32 ∧
      noShiftC.shiftC = none) ∧
    (noTable.phase = .built ∧ noTable.masks = []) := by decide

theorem witness_BringUpMakesTransformsAvailable :
    let cmds := [Instr.map 0#64, .unmap 1#64]
    let port := HostEvent.reset ::
      (Instr.gload 1#64 13#32 7#32 17#32 :: Instr.build :: cmds).map (fun i => HostEvent.command (encode i))
    (∀ i ∈ cmds, isTransform i = true) ∧ State.port { seeded1 with port := port } = port ∧
    cmds = [] ++ .map 0#64 :: [.unmap 1#64] ∧ cmds = [.map 0#64] ++ .unmap 1#64 :: [] := by decide

/-- Its second part. -/
theorem witness_BringUpMakesTransformsAvailable_generator :
    let port := HostEvent.reset ::
      (Instr.gload 1#64 13#32 7#32 17#32 :: List.replicate 1 .gadv).map (fun i => HostEvent.command (encode i))
    State.port { built0 with port := port } = port := rfl

/-- Operands at the last value taken, and at the first refused. -/
theorem witness_AssemblerTakesFittingOperands :
    2 ^ 64 - 1 < 2 ^ 64 ∧ 2 ^ 32 - 1 < 2 ^ 32 ∧ 2 ^ 64 ≤ 2 ^ 64 ∧ 2 ^ 32 ≤ 2 ^ 32 := by decide

theorem witness_NewExpandsToGloadBuild :
    assembleLine (.new 1 13 7 17) = some [.gload 1#64 13#32 7#32 17#32, .build] := by decide

end Sys2Proof.Tests
end

/-! SUPPORT. The reset values, the rejections of the phase check, and the invariant of the lifecycle along every run
(10_state.md R17, R23; 70_reset_and_hazards.md R142). -/

namespace Sys2Proof.Machine

/-! ### The phase a command needs -/

/-- The phase in which a defined command is accepted; a reserved one is accepted in none (10_state.md R17;
60_exceptions.md R122, R123). -/
def acceptedPhase : Instr → Option Phase
  | .gload _ _ _ _ => some .empty
  | .gadv => some .seeded
  | .build => some .seeded
  | .map _ => some .built
  | .unmap _ => some .built
  | .reserved0 => none
  | .reserved6 => none
  | .reserved7 => none

/-- A transform is accepted in BUILT (42_mixing_pipeline.md R98, R100). -/
theorem acceptedPhase_of_isTransform {i : Instr} (h : isTransform i = true) : acceptedPhase i = some .built := by
  cases i with
  | map x => rfl
  | unmap x => rfl
  | gload | gadv | build | reserved0 | reserved6 | reserved7 => cases h

/-- Outside the phase it needs, a defined command is rejected with PHASE and writes the response alone (60_exceptions.md
R123). -/
theorem exec_of_phase_ne {i : Instr} {p : Phase} {s : State} (hi : acceptedPhase i = some p) (h : s.phase ≠ p) :
    exec i s = .next (s.respond .phase 0#64) := by
  cases i with
  | gload | gadv | build | map | unmap => cases hi; exact requirePhase_of_ne h _
  | reserved0 | reserved6 | reserved7 => cases hi

/-! ### What BUILD's loop leaves -/

/-- The generator state once `n` words are drawn: the seed, then the word last drawn (40_generator.md R73). -/
def genAfter (s : Word) (a b c : Amount) : Nat → Word
  | 0 => s
  | n + 1 => genWord s a b c n

/-- The `advance` step after `n` words draws `w_n` (40_generator.md R73). -/
theorem adv_genAfter (s : Word) (a b c : Amount) (n : Nat) :
    adv (genAfter s a b c n) a b c = genWord s a b c n := by
  cases n with
  | zero => rfl
  | succ n => rfl

/-- A write above every listed index appends its cell. -/
theorem Memory.write_eq_append {m : Memory} {k : Nat} (h : ∀ cell ∈ m, cell.1 < k) (v : Word) :
    Memory.write m k v = m ++ [(k, v)] := by
  induction m with
  | nil => rfl
  | cons cell m ih =>
    obtain ⟨a, u⟩ := cell
    obtain ⟨(ha : a < k), hm⟩ := List.forall_mem_cons.1 h
    rw [Memory.write, if_neg (Nat.lt_asymm ha), if_neg (Nat.ne_of_gt ha), ih hm, List.cons_append]

/-- The loop over consecutive indices from `i` on, with `i` words drawn and no entry from `i` on listed: it lists each
entry in turn, entry `k` with `w_k & KEEP(k)`. -/
theorem buildLoop_consecutive (s : Word) (a b c : Amount) {ks : List MaskIndex} {i : Nat} {m : Memory}
    (hks : ks.map Fin.val = List.range' i ks.length) (hm : ∀ cell ∈ m, cell.1 < i) :
    buildLoop a b c ks (genAfter s a b c i) m =
      (genAfter s a b c (i + ks.length), m ++ ks.map fun k => (k.val, genWord s a b c k.val &&& keep k)) := by
  induction ks generalizing i m with
  | nil => simp [buildLoop]
  | cons k ks ih =>
    obtain ⟨rfl, hks⟩ := List.cons.inj hks
    have hm' : ∀ cell ∈ m ++ [(k.val, genWord s a b c k.val &&& keep k)], cell.1 < k.val + 1 := by
      intro cell hc
      rcases List.mem_append.1 hc with hc | hc
      · exact Nat.lt_succ_of_lt (hm cell hc)
      · cases List.mem_singleton.1 hc
        exact Nat.lt_succ_self _
    have hrest : buildLoop a b c ks (genWord s a b c k.val) _ = _ := ih hks hm'
    rw [buildLoop, adv_genAfter, Memory.write_eq_append hm, hrest, List.append_assoc,
      List.length_cons, Nat.add_assoc, Nat.add_comm 1]
    rfl

/-- BUILD's loop from an empty table computes `TABLE(s, a, b, c)`, masks and final state (41_table_build.md R81,
R82). -/
theorem buildLoop_eq_table (s : Word) (a b c : Amount) :
    buildLoop a b c (List.finRange 128) s [] = (tableState s a b c, Memory.ofTable (table s a b c)) := by
  have h := buildLoop_consecutive s a b c (ks := List.finRange 128) (i := 0) (m := [])
    (by rw [List.map_coe_finRange_eq_range, List.length_finRange, List.range_eq_range']) (by simp)
  simpa [genAfter, tableState, Memory.ofTable, table] using h

/-! ### The invariant and the updates it does not see -/

/-- The invariant says nothing about the response. -/
theorem State.Inv.respond {s : State} (h : s.Inv) (st : Status) (d : Word) : (s.respond st d).Inv :=
  ⟨h.masksWf, h.generatorAbsent, h.generatorPresent, h.tableAbsent, h.tableBuilt⟩

/-- The invariant says nothing about what the host presents. -/
theorem State.Inv.setPort {s : State} (h : s.Inv) (es : List HostEvent) : (s.setPort es).Inv :=
  ⟨h.masksWf, h.generatorAbsent, h.generatorPresent, h.tableAbsent, h.tableBuilt⟩

/-- The block right after reset meets the invariant (10_state.md R23). -/
theorem State.reset_inv : State.reset.Inv where
  masksWf := State.reset_masks_wf
  generatorAbsent _ := ⟨rfl, rfl, rfl, rfl⟩
  generatorPresent h := absurd rfl h
  tableAbsent _ := rfl
  tableBuilt h := nomatch h

/-- A built block's table holds 128 words (10_state.md section 2). -/
theorem State.Inv.masks_hold {s : State} (h : s.Inv) (hp : s.phase = .built) : ∃ t, Memory.holds s.masks t := by
  obtain ⟨w, a, b, c, hm, -⟩ := h.tableBuilt hp
  exact ⟨table w a b c, hm ▸ Memory.read_ofTable _⟩

/-! ### Every command answers and keeps the invariant -/

/-- The outcome is a next state, and one that meets the invariant: no absent value was read. -/
def AnswersInv (r : Result) : Prop := ∃ t, r = .next t ∧ t.Inv

/-- A next state that meets the invariant. -/
theorem answersInv_next {t : State} (h : t.Inv) : AnswersInv (.next t) := ⟨t, rfl, h⟩

/-- Behind a phase check only the accepted case is left to show. -/
theorem requirePhase_answersInv {p : Phase} {s : State} {body : Result} (hs : s.Inv)
    (h : s.phase = p → AnswersInv body) : AnswersInv (requirePhase p s body) := by
  by_cases hp : s.phase = p
  · rw [requirePhase_of_eq hp]
    exact h hp
  · rw [requirePhase_of_ne hp]
    exact answersInv_next (hs.respond _ _)

/-- GLOAD fills the generator, and the table stays absent (40_generator.md R66). -/
theorem execGload_answersInv (x : Word) (a b c : Amount) {s : State} (hs : s.Inv) :
    AnswersInv (execGload x a b c s) :=
  requirePhase_answersInv hs fun hp => answersInv_next
    { masksWf := hs.masksWf
      generatorAbsent := nofun
      generatorPresent := fun _ => ⟨x, a, b, c, rfl, rfl, rfl, rfl⟩
      tableAbsent := fun _ => hs.tableAbsent (by simp [hp])
      tableBuilt := nofun }

/-- GADV finds the generator present and leaves it so (40_generator.md R70). -/
theorem execGadv_answersInv {s : State} (hs : s.Inv) : AnswersInv (execGadv s) :=
  requirePhase_answersInv hs fun hp => by
    obtain ⟨w, a, b, c, hw, ha, hb, hc⟩ := hs.generatorPresent (by simp [hp])
    rw [readGen_some hw ha hb hc]
    exact answersInv_next
      { masksWf := hs.masksWf
        generatorAbsent := fun h => by simp [hp] at h
        generatorPresent := fun _ => ⟨adv w a b c, a, b, c, rfl, ha, hb, hc⟩
        tableAbsent := hs.tableAbsent
        tableBuilt := fun h => by simp [hp] at h }

/-- BUILD finds the generator present and the table absent, and leaves the table of that generator (41_table_build.md
R82). -/
theorem execBuild_answersInv {s : State} (hs : s.Inv) : AnswersInv (execBuild s) :=
  requirePhase_answersInv hs fun hp => by
    obtain ⟨w, a, b, c, hw, ha, hb, hc⟩ := hs.generatorPresent (by simp [hp])
    rw [readGen_some hw ha hb hc, hs.tableAbsent (by simp [hp]), buildLoop_eq_table]
    exact answersInv_next
      { masksWf := Memory.ofTable_wf _
        generatorAbsent := nofun
        generatorPresent := fun _ => ⟨tableState w a b c, a, b, c, rfl, ha, hb, hc⟩
        tableAbsent := fun h => absurd rfl h
        tableBuilt := fun _ => ⟨w, a, b, c, rfl, rfl, ha, hb, hc⟩ }

/-- MAP and UNMAP find every entry they read, in whatever order their stages run (42_mixing_pipeline.md R98, R100). -/
theorem transform_answersInv (is : List Round) (x : Word) {s : State} (hs : s.Inv) :
    AnswersInv (requirePhase .built s (respondWord (runStages s.masks is x) s)) :=
  requirePhase_answersInv hs fun hp => by
    obtain ⟨t, ht⟩ := hs.masks_hold hp
    rw [runStages_of_reads fun k _ => ht k]
    exact answersInv_next (hs.respond _ _)

/-- Under the invariant every command answers and keeps it (70_reset_and_hazards.md R142). -/
theorem exec_answersInv (i : Instr) {s : State} (hs : s.Inv) : AnswersInv (exec i s) := by
  cases i with
  | gload x a b c => exact execGload_answersInv x a b c hs
  | gadv => exact execGadv_answersInv hs
  | build => exact execBuild_answersInv hs
  | map x => exact transform_answersInv rounds x hs
  | unmap x => exact transform_answersInv rounds.reverse x hs
  | reserved0 | reserved6 | reserved7 => exact answersInv_next (hs.respond _ _)

/-! ### Every run answers and keeps the invariant -/

/-- Under the invariant every step answers and keeps it: idle, reset or command. -/
theorem step_answersInv {s : State} (hs : s.Inv) : AnswersInv (step s) := by
  unfold step
  split
  · exact answersInv_next hs
  · exact answersInv_next (State.reset_inv.setPort _)
  · exact exec_answersInv _ (hs.setPort _)

/-- Under the invariant every run answers and keeps it. -/
theorem run_answersInv (n : Nat) {s : State} (hs : s.Inv) : AnswersInv (run n s) := by
  induction n generalizing s with
  | zero => exact answersInv_next hs
  | succ n ih =>
    obtain ⟨t, ht, hinv⟩ := step_answersInv hs
    rw [run_succ_of_next ht]
    exact ih hinv

/-! ### The reset values -/

/-- Settles O11: the reset values by definition, the rejections by the phase each command needs, and the runs by the
invariant of the lifecycle, which the reset state meets whatever the host presents. -/
theorem resetHoldsNoValue : Obligations.ResetHoldsNoValue := by
  have rejected : ∀ i : Instr, i = .gadv ∨ i = .build ∨ isTransform i = true →
      ∀ s : State, s.phase = .empty → exec i s = .next (s.respond .phase 0#64) := by
    intro i hi s hs
    rcases hi with rfl | rfl | hi
    · exact exec_of_phase_ne rfl (by simp [hs])
    · exact exec_of_phase_ne rfl (by simp [hs])
    · exact exec_of_phase_ne (acceptedPhase_of_isTransform hi) (by simp [hs])
  refine ⟨rfl, rfl, rfl, rfl, rfl, rfl, Memory.read_nil, rejected, fun n events => ?_⟩
  obtain ⟨t, ht, -⟩ := run_answersInv n (State.reset_inv.setPort events)
  exact ⟨t, ht⟩

end Sys2Proof.Machine

/-! SUPPORT. The index a stage forms, in numbers and as seven bits (20_memory.md R36). -/

namespace Sys2Proof.Machine

/-- The selecting bit as a number is the bit `i` of the entering word (42_mixing_pipeline.md R96). -/
@[simp] theorem stageBit_toNat (i : Round) (num : Word) : (stageBit i num).toNat = (num.getLsbD i.val).toNat := by
  rw [stageBit_eq]
  cases num.getLsbD i.val with
  | false => rfl
  | true => rfl

/-- The effective index in numbers: the shift doubles the round (20_memory.md R36). -/
theorem maskIndex_val (i : Round) (num : Word) :
    (maskIndex i num).val = 2 * i.val + (num.getLsbD i.val).toNat :=
  calc (maskIndex i num).val
    _ = (i.val <<< 1) + (stageBit i num).toNat := rfl
    _ = 2 * i.val + (num.getLsbD i.val).toNat := by
      rw [stageBit_toNat, Nat.shiftLeft_eq, pow_one, Nat.mul_comm]

/-- Twice a number below `2^w` and a bit, as `w + 1` bits, is the concatenation of the two: nothing is cut. -/
theorem ofNat_two_mul_add_bit {w n : Nat} (hn : n < 2 ^ w) (b : Bool) :
    BitVec.ofNat (w + 1) (2 * n + b.toNat) = BitVec.ofNat w n ++ BitVec.ofBool b := by
  have hb : b.toNat ≤ 1 := b.toNat_le
  have hfit : 2 * n + b.toNat < 2 ^ (w + 1) := by rw [Nat.pow_succ]; omega
  apply BitVec.eq_of_toNat_eq
  rw [BitVec.append_ofBool, BitVec.toNat_concat, BitVec.toNat_ofNat, BitVec.toNat_ofNat,
    Nat.mod_eq_of_lt hfit, Nat.mod_eq_of_lt hn, Nat.mul_comm]

/-- Settles O27: the index in numbers, the bound its type carries, and the concatenation because a round fits six
bits. -/
theorem stageIndexIsConcatenation : Obligations.StageIndexIsConcatenation := by
  intro i num
  refine ⟨maskIndex_val i num, Nat.le_of_lt_succ (maskIndex i num).isLt, ?_⟩
  rw [maskIndex_val]
  exact ofNat_two_mul_add_bit i.isLt _

end Sys2Proof.Machine

/-! SUPPORT. The command bundle: its fields as bits and as parts of the integer, the decoder's equation for each opcode,
and how decoder and encoder undo each other (30_encoding.md R46 to R49). -/

namespace Sys2Proof

open Sys2Proof.Laws

/-! ### Concatenation and fields over the integers -/

/-- A concatenation as an integer: the high part counts from the low part's width on. -/
theorem toNat_append_eq_add {v w : Nat} (hi : BitVec v) (lo : BitVec w) :
    (hi ++ lo).toNat = lo.toNat + hi.toNat * 2 ^ w := by
  rw [BitVec.toNat_append, ← Nat.shiftLeft_add_eq_or_of_lt lo.isLt, Nat.shiftLeft_eq, Nat.add_comm]

/-- A field as a part of the integer: `2^lo` divides off what lies below, the width cuts off what lies above. -/
theorem extractLsb'_eq_ofNat_div {w : Nat} (v : BitVec w) (lo len : Nat) :
    v.extractLsb' lo len = BitVec.ofNat len (v.toNat / 2 ^ lo) := by
  rw [← Nat.shiftRight_eq_div_pow]
  rfl

/-- The bits of a field: its bit `j` is bit `lo + j` (30_encoding.md R46). -/
theorem getLsbD_extractLsb'_of_lt {w : Nat} (v : BitVec w) (lo : Nat) {len j : Nat} (hj : j < len) :
    (v.extractLsb' lo len).getLsbD j = v.getLsbD (lo + j) := by
  rw [BitVec.getLsbD_extractLsb', decide_eq_true hj, Bool.true_and]

/-! ### The layout (30_encoding.md R46) -/

/-- The bundle as an integer: each field weighs `2^lo`. -/
theorem bundleOf_toNat (op : BitVec 3) (x : Word) (a b c : Amount) :
    (bundleOf op x a b c).toNat =
      op.toNat + x.toNat * 2 ^ 3 + a.toNat * 2 ^ 67 + b.toNat * 2 ^ 99 + c.toNat * 2 ^ 131 := by
  simp only [bundleOf, toNat_append_eq_add]
  omega

/-- Without shift amounts only the opcode and `x` count. -/
theorem bundleOf_zero_amounts_toNat (op : BitVec 3) (x : Word) :
    (bundleOf op x 0#32 0#32 0#32).toNat = op.toNat + x.toNat * 8 := by
  simp [bundleOf_toNat]

/-- A bundle is made of its five fields: they are adjacent and cover it. -/
theorem bundleOf_fields (cmd : Bundle) :
    bundleOf (cmdOp cmd) (cmdX cmd) (cmdA cmd) (cmdB cmd) (cmdC cmd) = cmd := by
  have adjacent {lo lo' len len' : Nat} (h : lo' = lo + len) :
      cmd.extractLsb' lo' len' ++ cmd.extractLsb' lo len = cmd.extractLsb' lo (len' + len) :=
    BitVec.extractLsb'_append_extractLsb'_eq_extractLsb' h
  unfold bundleOf cmdOp cmdX cmdA cmdB cmdC
  rw [adjacent (by rfl), adjacent (by rfl), adjacent (by rfl), adjacent (by rfl)]
  exact BitVec.extractLsb'_eq_self

@[simp] theorem cmdX_bundleOf (op : BitVec 3) (x : Word) (a b c : Amount) : cmdX (bundleOf op x a b c) = x := by
  unfold cmdX bundleOf
  rw [BitVec.extractLsb'_append_eq_of_le (by decide)]
  exact BitVec.extractLsb'_append_eq_right

@[simp] theorem cmdA_bundleOf (op : BitVec 3) (x : Word) (a b c : Amount) : cmdA (bundleOf op x a b c) = a := by
  unfold cmdA bundleOf
  rw [BitVec.extractLsb'_append_eq_of_le (by decide), BitVec.extractLsb'_append_eq_of_le (by decide)]
  exact BitVec.extractLsb'_append_eq_right

@[simp] theorem cmdB_bundleOf (op : BitVec 3) (x : Word) (a b c : Amount) : cmdB (bundleOf op x a b c) = b := by
  unfold cmdB bundleOf
  rw [BitVec.extractLsb'_append_eq_of_le (by decide), BitVec.extractLsb'_append_eq_of_le (by decide),
    BitVec.extractLsb'_append_eq_of_le (by decide)]
  exact BitVec.extractLsb'_append_eq_right

@[simp] theorem cmdC_bundleOf (op : BitVec 3) (x : Word) (a b c : Amount) : cmdC (bundleOf op x a b c) = c := by
  unfold cmdC bundleOf
  rw [BitVec.extractLsb'_append_eq_of_le (by decide), BitVec.extractLsb'_append_eq_of_le (by decide),
    BitVec.extractLsb'_append_eq_of_le (by decide)]
  exact BitVec.extractLsb'_append_eq_left

/-- The opcode field is the bundle modulo 8 (30_encoding.md R48). -/
theorem cmdOp_of_mod {cmd : Bundle} {n : Nat} (h : cmd.toNat % 8 = n) : cmdOp cmd = BitVec.ofNat 3 n := by
  apply BitVec.eq_of_toNat_eq
  rw [BitVec.toNat_ofNat, ← h]
  exact (Nat.mod_mod cmd.toNat 8).symm

/-! ### The decoder, opcode by opcode (30_encoding.md R48) -/

theorem decode_of_op0 {cmd : Bundle} (h : cmdOp cmd = 0#3) : decode cmd = .reserved0 := by
  simp only [decode, h]

theorem decode_of_op1 {cmd : Bundle} (h : cmdOp cmd = 1#3) :
    decode cmd = .gload (cmdX cmd) (cmdA cmd) (cmdB cmd) (cmdC cmd) := by
  simp only [decode, h]

theorem decode_of_op2 {cmd : Bundle} (h : cmdOp cmd = 2#3) : decode cmd = .gadv := by
  simp only [decode, h]

theorem decode_of_op3 {cmd : Bundle} (h : cmdOp cmd = 3#3) : decode cmd = .build := by
  simp only [decode, h]

theorem decode_of_op4 {cmd : Bundle} (h : cmdOp cmd = 4#3) : decode cmd = .map (cmdX cmd) := by
  simp only [decode, h]

theorem decode_of_op5 {cmd : Bundle} (h : cmdOp cmd = 5#3) : decode cmd = .unmap (cmdX cmd) := by
  simp only [decode, h]

theorem decode_of_op6 {cmd : Bundle} (h : cmdOp cmd = 6#3) : decode cmd = .reserved6 := by
  simp only [decode, h]

theorem decode_of_op7 {cmd : Bundle} (h : cmdOp cmd = 7#3) : decode cmd = .reserved7 := by
  simp only [decode, h]

/-- Every opcode is one of the eight rows of the map (30_encoding.md R48, R49). -/
theorem op_cases (op : BitVec 3) :
    op = 0#3 ∨ op = 1#3 ∨ op = 2#3 ∨ op = 3#3 ∨ op = 4#3 ∨ op = 5#3 ∨ op = 6#3 ∨ op = 7#3 := by
  revert op
  decide

/-- The decoder reads the encoder's bundle back, operands included. -/
theorem decode_encode (i : Instr) : decode (encode i) = i := by
  cases i with
  | gload x a b c => simp [encode, decode_of_op1]
  | gadv => exact decode_of_op2 (cmdOp_bundleOf ..)
  | build => exact decode_of_op3 (cmdOp_bundleOf ..)
  | map x => simp [encode, decode_of_op4]
  | unmap x => simp [encode, decode_of_op5]
  | reserved0 => exact decode_of_op0 (cmdOp_bundleOf ..)
  | reserved6 => exact decode_of_op6 (cmdOp_bundleOf ..)
  | reserved7 => exact decode_of_op7 (cmdOp_bundleOf ..)

/-- The encoder gives a decoded bundle back with the fields its format ignores cleared (30_encoding.md R47). -/
theorem encode_decode (cmd : Bundle) : encode (decode cmd) = clearIgnored cmd := by
  unfold clearIgnored
  rcases op_cases (cmdOp cmd) with h | h | h | h | h | h | h | h
  · rw [decode_of_op0 h, h]; rfl
  · rw [decode_of_op1 h, h]; rfl
  · rw [decode_of_op2 h, h]; rfl
  · rw [decode_of_op3 h, h]; rfl
  · rw [decode_of_op4 h, h]; rfl
  · rw [decode_of_op5 h, h]; rfl
  · rw [decode_of_op6 h, h]; rfl
  · rw [decode_of_op7 h, h]; rfl

/-- Bundles with one opcode that agree in the fields its format uses decode alike (30_encoding.md R47). -/
theorem decode_eq_of_agree {cmd cmd' : Bundle} (hop : cmdOp cmd = cmdOp cmd')
    (hg : cmdOp cmd = 1#3 →
      cmdX cmd = cmdX cmd' ∧ cmdA cmd = cmdA cmd' ∧ cmdB cmd = cmdB cmd' ∧ cmdC cmd = cmdC cmd')
    (hx : cmdOp cmd = 4#3 ∨ cmdOp cmd = 5#3 → cmdX cmd = cmdX cmd') : decode cmd = decode cmd' := by
  rcases op_cases (cmdOp cmd) with h | h | h | h | h | h | h | h
  · rw [decode_of_op0 h, decode_of_op0 (hop ▸ h)]
  · obtain ⟨hx, ha, hb, hc⟩ := hg h
    rw [decode_of_op1 h, decode_of_op1 (hop ▸ h), hx, ha, hb, hc]
  · rw [decode_of_op2 h, decode_of_op2 (hop ▸ h)]
  · rw [decode_of_op3 h, decode_of_op3 (hop ▸ h)]
  · rw [decode_of_op4 h, decode_of_op4 (hop ▸ h), hx (.inl h)]
  · rw [decode_of_op5 h, decode_of_op5 (hop ▸ h), hx (.inr h)]
  · rw [decode_of_op6 h, decode_of_op6 (hop ▸ h)]
  · rw [decode_of_op7 h, decode_of_op7 (hop ▸ h)]

/-! ### The statements about the bundle -/

/-- Settles O1: the integer and the reassembly by concatenation, the bits by extraction, the operands by the decoder's
equations. -/
theorem bundleFieldsAtTheirBits : Obligations.BundleFieldsAtTheirBits := by
  refine ⟨bundleOf_toNat, fun cmd => ⟨fun j hj => ?_, ?_, ?_, ?_, ?_, bundleOf_fields cmd, decode_of_op1,
    decode_of_op4, decode_of_op5⟩⟩
  · rw [cmdOp, getLsbD_extractLsb'_of_lt cmd 0 hj, Nat.zero_add]
  · exact fun j => getLsbD_extractLsb'_of_lt cmd 3
  · exact fun j => getLsbD_extractLsb'_of_lt cmd 67
  · exact fun j => getLsbD_extractLsb'_of_lt cmd 99
  · exact fun j => getLsbD_extractLsb'_of_lt cmd 131

/-- Settles O3: the residue is the opcode field, the operands are quotients of the integer, and a reserved command
rejects by definition. -/
theorem opcodeMapSelectsCommand : Obligations.OpcodeMapSelectsCommand := by
  intro cmd
  have hx : cmdX cmd = BitVec.ofNat 64 (cmd.toNat / 2 ^ 3) := extractLsb'_eq_ofNat_div ..
  have ha : cmdA cmd = BitVec.ofNat 32 (cmd.toNat / 2 ^ 67) := extractLsb'_eq_ofNat_div ..
  have hb : cmdB cmd = BitVec.ofNat 32 (cmd.toNat / 2 ^ 99) := extractLsb'_eq_ofNat_div ..
  have hc : cmdC cmd = BitVec.ofNat 32 (cmd.toNat / 2 ^ 131) := extractLsb'_eq_ofNat_div ..
  rw [← hx, ← ha, ← hb, ← hc]
  have withFormat {i : Instr} (h : decode cmd = i) : decode cmd = i ∧ (decode cmd).format = i.format :=
    ⟨h, congrArg Instr.format h⟩
  refine ⟨fun h => decode_of_op0 (cmdOp_of_mod h), fun h => withFormat (decode_of_op1 (cmdOp_of_mod h)),
    fun h => withFormat (decode_of_op2 (cmdOp_of_mod h)), fun h => withFormat (decode_of_op3 (cmdOp_of_mod h)),
    fun h => withFormat (decode_of_op4 (cmdOp_of_mod h)), fun h => withFormat (decode_of_op5 (cmdOp_of_mod h)),
    fun h => decode_of_op6 (cmdOp_of_mod h), fun h => decode_of_op7 (cmdOp_of_mod h), ?_⟩
  rintro (h | h | h) s
  · rw [decode_of_op0 (cmdOp_of_mod h)]; rfl
  · rw [decode_of_op6 (cmdOp_of_mod h)]; rfl
  · rw [decode_of_op7 (cmdOp_of_mod h)]; rfl

end Sys2Proof

/-! SUPPORT. What a presented command does, what a command can answer, and the response as a bundle (30_encoding.md R45,
R47, R50). -/

namespace Sys2Proof.Machine

/-! ### A presented command -/

/-- A presented bundle is decoded and executed, and the port moves on (30_encoding.md R45). -/
theorem step_of_port {s : State} {cmd : Bundle} {rest : List HostEvent} (h : s.port = .command cmd :: rest) :
    step s = exec (decode cmd) (s.setPort rest) := by
  simp only [step, h]

/-- A presented assembled command is that command. -/
theorem step_of_port_encode {s : State} {i : Instr} {rest : List HostEvent}
    (h : s.port = .command (encode i) :: rest) : step s = exec i (s.setPort rest) := by
  rw [step_of_port h, decode_encode]

/-- Settles O4: the step sees a bundle through the decoder alone, and the encoder writes zero where the format uses
nothing. -/
theorem ignoredFieldsHaveNoEffect : Obligations.IgnoredFieldsHaveNoEffect := by
  refine ⟨fun cmd cmd' hop hg hx => ?_, fun cmd => ⟨encode_decode cmd, ?_, ?_, ?_, ?_, ?_⟩⟩
  · have hd := decode_eq_of_agree hop hg hx
    refine ⟨hd, fun s rest => ?_⟩
    rw [step_of_port (cmd := cmd) rfl, step_of_port (cmd := cmd') rfl, hd]
    rfl
  · intro h
    rw [decode_of_op1 h, encode, ← h, bundleOf_fields]
  · intro h
    rw [decode_of_op2 h]
    exact bundleOf_zero_amounts_toNat ..
  · intro h
    rw [decode_of_op3 h]
    exact bundleOf_zero_amounts_toNat ..
  · intro h
    rw [decode_of_op4 h]
    exact bundleOf_zero_amounts_toNat ..
  · intro h
    rw [decode_of_op5 h]
    exact bundleOf_zero_amounts_toNat ..

/-! ### What a command can answer -/

/-- The reserved commands are the ones accepted in no phase (30_encoding.md R52). -/
theorem acceptedPhase_eq_none {i : Instr} :
    acceptedPhase i = none ↔ i = .reserved0 ∨ i = .reserved6 ∨ i = .reserved7 := by
  cases i with
  | gload | gadv | build | map | unmap => simp [acceptedPhase]
  | reserved0 | reserved6 | reserved7 => simp [acceptedPhase]

/-- The previous response is not read, and none of it is kept (30_encoding.md R50). -/
theorem exec_rsp (i : Instr) (s : State) (r : Option Response) : exec i { s with rsp := r } = exec i s := by
  cases i with
  | gload | gadv | build | map | unmap => rfl
  | reserved0 | reserved6 | reserved7 => rfl

/-- `d` is the data word of the command `i` executed from `s` to `t` (30_encoding.md R50). -/
def OkData (i : Instr) (s t : State) (d : Word) : Prop :=
  match i with
  | .gload _ _ _ _ => d = 0#64
  | .gadv => t.state = some d
  | .build => d = 0#64
  | .map x => runStages s.masks rounds x = some d
  | .unmap x => runStages s.masks rounds.reverse x = some d
  | .reserved0 | .reserved6 | .reserved7 => False

/-- The three ways in which the command `i` can answer from `s` with `t`. -/
inductive Answered (i : Instr) (s t : State) : Prop where
  /-- Reserved: rejected with ILLEGAL (60_exceptions.md R122). -/
  | illegal (reserved : acceptedPhase i = none) (answer : t = s.respond .illegal 0#64)
  /-- Defined, but outside its phase: rejected with PHASE (60_exceptions.md R123). -/
  | phase (p : Phase) (defined : acceptedPhase i = some p) (outside : s.phase ≠ p) (answer : t = s.respond .phase 0#64)
  /-- Executed in its phase (30_encoding.md R50). -/
  | ok (d : Word) (accepted : acceptedPhase i = some s.phase) (answer : t.rsp = some ⟨.ok, d⟩) (data : OkData i s t d)

/-- Behind a phase check only the executed case is left to show. -/
theorem requirePhase_answered {i : Instr} {p : Phase} {s t : State} {body : Result} (hi : acceptedPhase i = some p)
    (h : requirePhase p s body = .next t)
    (hbody : body = .next t → ∃ d, t.rsp = some ⟨.ok, d⟩ ∧ OkData i s t d) : Answered i s t := by
  rcases requirePhase_next h with ⟨hp, hb⟩ | ⟨hp, ht⟩
  · obtain ⟨d, hd, hdata⟩ := hbody hb
    exact .ok d (hp ▸ hi) hd hdata
  · exact .phase p hi hp ht

/-- Everything a command that answers can do, in every state. -/
theorem exec_next {i : Instr} {s t : State} (h : exec i s = .next t) : Answered i s t := by
  cases i with
  | gload x a b c =>
    refine requirePhase_answered rfl h fun hb => ?_
    cases hb
    exact ⟨0#64, rfl, rfl⟩
  | gadv =>
    refine requirePhase_answered rfl h fun hb => ?_
    obtain ⟨w, a, b, c, -, -, -, -, hb⟩ := readGen_next hb
    cases hb
    exact ⟨adv w a b c, rfl, rfl⟩
  | build =>
    refine requirePhase_answered rfl h fun hb => ?_
    obtain ⟨w, a, b, c, -, -, -, -, hb⟩ := readGen_next hb
    rw [← Host.Outcome.next.inj hb]
    exact ⟨0#64, rfl, rfl⟩
  | map x | unmap x =>
    refine requirePhase_answered rfl h fun hb => ?_
    obtain ⟨num, hnum, rfl⟩ := respondWord_next hb
    exact ⟨num, rfl, hnum⟩
  | reserved0 | reserved6 | reserved7 =>
    cases h
    exact .illegal rfl rfl

/-- The stages on a table that holds the words of `t` give the pure transform of `t` (42_mixing_pipeline.md R97). -/
theorem eq_stages_of_holds {m : Memory} {t : Table} (hm : Memory.holds m t) {is : List Round} {x d : Word}
    (h : runStages m is x = some d) : d = stages t is x :=
  Option.some.inj (h.symm.trans (runStages_of_reads fun k _ => hm k))

/-! ### The response as a bundle -/

/-- The response bundle as an integer (30_encoding.md R50). -/
theorem Response.toBundle_toNat (r : Response) : r.toBundle.toNat = r.status.code.toNat + 4 * r.data.toNat := by
  rw [Response.toBundle, toNat_append_eq_add, Nat.mul_comm r.data.toNat]
  rfl

/-- A response is read back from its bundle. -/
theorem Response.ofBundle_toBundle (r : Response) : Response.ofBundle r.toBundle = some r := by
  obtain ⟨status, data⟩ := r
  simp only [Response.toBundle, Response.ofBundle, BitVec.extractLsb'_append_eq_right,
    BitVec.extractLsb'_append_eq_left]
  cases status with
  | ok => rfl
  | illegal => rfl
  | phase => rfl

/-- The status field of a response bundle is the bundle modulo 4; its value 3 is no status (30_encoding.md R50). -/
theorem Response.ofBundle_eq_none {rsp : RspBundle} : Response.ofBundle rsp = none ↔ rsp.toNat % 4 = 3 := by
  have hmod : (rsp.extractLsb' 0 2).toNat = rsp.toNat % 4 := rfl
  rw [← hmod]
  unfold Response.ofBundle
  split
  next h => simp [h]
  next h => simp [h]
  next h => simp [h]
  next h => simp [h]

/-- Settles O7: under the invariant every command answers, in one of three ways; the response bundle by its layout. -/
theorem everyCommandIsAnswered : Obligations.EveryCommandIsAnswered := by
  refine ⟨fun s i hs => ?_, fun r => ⟨r.toBundle_toNat, r.ofBundle_toBundle⟩, fun rsp => Response.ofBundle_eq_none,
    rfl, rfl, rfl⟩
  obtain ⟨t, ht, -⟩ := exec_answersInv i hs
  have hrsp (r : Option Response) : exec i { s with rsp := r } = .next t := (exec_rsp i s r).trans ht
  rw [← acceptedPhase_eq_none]
  rcases exec_next ht with ⟨hi, rfl⟩ | ⟨p, hi, -, rfl⟩ | ⟨d, hi, hd, hok⟩
  · exact ⟨_, .illegal, 0#64, ht, rfl, fun _ => ⟨rfl, rfl⟩, iff_of_true rfl hi, nofun, hrsp⟩
  · exact ⟨_, .phase, 0#64, ht, rfl, fun _ => ⟨rfl, rfl⟩, iff_of_false nofun (by simp [hi]), nofun, hrsp⟩
  · refine ⟨t, .ok, d, ht, hd, fun h => absurd rfl h, iff_of_false nofun (by simp [hi]),
      fun _ => ⟨?_, ?_, ?_, ?_, ?_⟩, hrsp⟩
    · rintro x a b c rfl
      exact hok
    · rintro rfl
      exact hok
    · rintro rfl
      exact hok
    · rintro tbl x htbl rfl
      exact eq_stages_of_holds htbl hok
    · rintro tbl x htbl rfl
      exact eq_stages_of_holds htbl hok

end Sys2Proof.Machine

/-! SUPPORT. What the assembler takes, what an accepted GLOAD and an accepted BUILD leave, and NEW (30_encoding.md R54,
R55). -/

namespace Sys2Proof.Machine

/-- The assembler refuses the lines that are not well formed (30_encoding.md R54). -/
theorem assembleLine_eq_none {line : AsmLine} : assembleLine line = none ↔ line.wellFormed = false := by
  simp [assembleLine]

/-- The assembler expands the lines that are well formed. -/
theorem assembleLine_eq_some {line : AsmLine} {cmds : List Instr} :
    assembleLine line = some cmds ↔ line.wellFormed = true ∧ expandLine line = cmds := by
  simp [assembleLine]

/-- GLOAD in EMPTY (40_generator.md R66). -/
theorem exec_gload_of_empty {s : State} (hp : s.phase = .empty) (x : Word) (a b c : Amount) :
    exec (.gload x a b c) s = .next (((s.loadGen x a b c).setPhase .seeded).respond .ok 0#64) :=
  requirePhase_of_eq hp _

/-- BUILD in SEEDED on an empty table leaves the table of the generator (41_table_build.md R82). -/
theorem exec_build_of_seeded {s : State} {w : Word} {a b c : Amount} (hp : s.phase = .seeded)
    (hg : s.holdsGen w a b c) (hm : s.masks = []) :
    exec .build s = .next ((((s.setGen (tableState w a b c)).setMasks (Memory.ofTable (table w a b c))).setPhase
      .built).respond .ok 0#64) := by
  obtain ⟨hw, ha, hb, hc⟩ := hg
  refine (requirePhase_of_eq hp _).trans ((readGen_some hw ha hb hc _).trans ?_)
  rw [hm, buildLoop_eq_table]

/-- GLOAD and BUILD issued right after reset: both are accepted, and the table is the one of the operands
(41_table_build.md R82, R87). -/
theorem run_gload_build (x : Word) (a b c : Amount) :
    ∃ t u, run 1 (State.reset.issue [.gload x a b c, .build]) = .next t ∧ t.rsp = some ⟨.ok, 0#64⟩ ∧
      run 2 (State.reset.issue [.gload x a b c, .build]) = .next u ∧ u.rsp = some ⟨.ok, 0#64⟩ ∧ u.phase = .built ∧
      Memory.holds u.masks (table x a b c) := by
  have hload := (step_of_port_encode (s := State.reset.issue [.gload x a b c, .build]) rfl).trans
    (exec_gload_of_empty rfl x a b c)
  obtain ⟨t, ht, htr, hport, hphase, hgen, hmasks⟩ :
      ∃ t, step (State.reset.issue [.gload x a b c, .build]) = .next t ∧ t.rsp = some ⟨.ok, 0#64⟩ ∧
        t.port = [.command (encode .build)] ∧ t.phase = .seeded ∧ t.holdsGen x a b c ∧ t.masks = [] :=
    ⟨_, hload, rfl, rfl, rfl, ⟨rfl, rfl, rfl, rfl⟩, rfl⟩
  have hbuild := (step_of_port_encode hport).trans (exec_build_of_seeded hphase hgen hmasks)
  exact ⟨t, _, run_succ_of_next ht 0, htr, (run_succ_of_next ht 1).trans (run_succ_of_next hbuild 0), rfl, rfl,
    Memory.read_ofTable _⟩

/-- Settles O55: NEW and GLOAD have one check, NEW's expansion is GLOAD's with BUILD behind it, and the run of the two
commands. -/
theorem newExpandsToGloadBuild : Obligations.NewExpandsToGloadBuild := by
  intro seed a b c
  have hwf : (AsmLine.new seed a b c).wellFormed = (AsmLine.gload seed a b c).wellFormed := rfl
  refine ⟨by rw [assembleLine_eq_none, assembleLine_eq_none, hwf], fun cmds h => ?_⟩
  obtain ⟨hok, rfl⟩ := assembleLine_eq_some.1 h
  exact ⟨assembleLine_eq_some.2 ⟨hwf ▸ hok, rfl⟩, rfl, run_gload_build _ _ _ _⟩

end Sys2Proof.Machine

/-! SUPPORT. The words of the generator: the shifts on the numbers and at their corners, `ADV`, and the sequence
(40_generator.md R65, R71 to R75). -/

namespace Sys2Proof.Machine

/-! ### The shifts (00_scope.md R6) -/

/-- `shl64` on the numbers, for any amount. -/
theorem shl64_toNat (v : Word) (n : Nat) : (shl64 v n).toNat = v.toNat * 2 ^ n % 2 ^ 64 := by
  unfold shl64
  split
  next => rw [BitVec.toNat_shiftLeft, Nat.shiftLeft_eq]
  next h =>
    have hcut : 2 ^ 64 ∣ v.toNat * 2 ^ n := (Nat.pow_dvd_pow 2 (Nat.le_of_not_lt h)).mul_left _
    exact (Nat.mod_eq_zero_of_dvd hcut).symm

/-- `shr64` on the numbers, for any amount. -/
theorem shr64_toNat (v : Word) (n : Nat) : (shr64 v n).toNat = v.toNat / 2 ^ n := by
  unfold shr64
  split
  next => rw [BitVec.toNat_ushiftRight, Nat.shiftRight_eq_div_pow]
  next h =>
    have hlt : v.toNat < 2 ^ n := v.isLt.trans_le (Nat.pow_le_pow_right (by decide) (Nat.le_of_not_lt h))
    exact (Nat.div_eq_of_lt hlt).symm

/-- A left shift by 64 or more leaves nothing. -/
theorem shl64_of_le (v : Word) {n : Nat} (h : 64 ≤ n) : shl64 v n = 0#64 := if_neg (Nat.not_lt.2 h)

/-- A right shift by 64 or more leaves nothing. -/
theorem shr64_of_le (v : Word) {n : Nat} (h : 64 ≤ n) : shr64 v n = 0#64 := if_neg (Nat.not_lt.2 h)

/-- A left shift by 0 is the word. -/
@[simp] theorem shl64_zero (v : Word) : shl64 v 0 = v := BitVec.shiftLeft_zero v

/-- A right shift by 0 is the word. -/
@[simp] theorem shr64_zero (v : Word) : shr64 v 0 = v := BitVec.ushiftRight_zero v

/-- A left shift of zero is zero. -/
@[simp] theorem zero_shl64 (n : Nat) : shl64 0#64 n = 0#64 :=
  BitVec.eq_of_toNat_eq (by simp [shl64_toNat])

/-- A right shift of zero is zero. -/
@[simp] theorem zero_shr64 (n : Nat) : shr64 0#64 n = 0#64 :=
  BitVec.eq_of_toNat_eq (by simp [shr64_toNat])

/-! ### The self-XOR steps of `ADV` (40_generator.md R71, R75) -/

/-- A step by 64 or more is the identity, in both directions. -/
theorem xor_shift_of_le (t : Word) {n : Nat} (h : 64 ≤ n) : t ^^^ shl64 t n = t ∧ t ^^^ shr64 t n = t := by
  rw [shl64_of_le t h, shr64_of_le t h]
  exact ⟨BitVec.xor_zero, BitVec.xor_zero⟩

/-- A step by 0 clears the word, in both directions. -/
theorem xor_shift_zero (t : Word) : t ^^^ shl64 t 0 = 0#64 ∧ t ^^^ shr64 t 0 = 0#64 := by
  rw [shl64_zero, shr64_zero]
  exact ⟨BitVec.xor_self, BitVec.xor_self⟩

/-- A left step loses nothing: bit `j` of its word is recovered from bit `j - n`, lowest bit first. -/
theorem xor_shl64_bijective {n : Nat} (hn : 1 ≤ n) : Function.Bijective fun t : Word => t ^^^ shl64 t n := by
  refine Finite.injective_iff_bijective.1 fun t u h => BitVec.eq_of_getLsbD_eq fun j => ?_
  induction j using Nat.strong_induction_on with
  | _ j ih =>
    intro hj
    have hshift : (shl64 t n).getLsbD j = (shl64 u n).getLsbD j := by
      rw [shl64_getLsbD, shl64_getLsbD]
      by_cases hjn : j < n
      · simp [hjn]
      · rw [ih (j - n) (by omega) (by omega)]
    have hbit := congrArg (·.getLsbD j) h
    simpa only [BitVec.getLsbD_xor, hshift, Bool.xor_left_inj] using hbit

/-- A right step loses nothing: bit `j` of its word is recovered from bit `n + j`, highest bit first. -/
theorem xor_shr64_bijective {n : Nat} (hn : 1 ≤ n) : Function.Bijective fun t : Word => t ^^^ shr64 t n := by
  refine Finite.injective_iff_bijective.1 fun t u h => BitVec.eq_of_getLsbD_eq fun j => ?_
  induction hd : 64 - j using Nat.strong_induction_on generalizing j with
  | _ d ih =>
    intro hj
    have hshift : (shr64 t n).getLsbD j = (shr64 u n).getLsbD j := by
      rw [shr64_getLsbD, shr64_getLsbD]
      by_cases hout : 64 ≤ n + j
      · rw [BitVec.getLsbD_of_ge t _ hout, BitVec.getLsbD_of_ge u _ hout]
      · exact ih (64 - (n + j)) (by omega) (n + j) rfl (by omega)
    have hbit := congrArg (·.getLsbD j) h
    simpa only [BitVec.getLsbD_xor, hshift, Bool.xor_left_inj] using hbit

/-- A map that sends every word to zero is no bijection. -/
theorem not_bijective_of_eq_zero {f : Word → Word} (h : ∀ t, f t = 0#64) : ¬ Function.Bijective f :=
  fun hf => absurd (hf.injective ((h 0#64).trans (h 1#64).symm)) (by decide)

/-! ### `ADV` (40_generator.md R65) -/

/-- `ADV` is the left step by `a`, the right step by `b` and the left step by `c`, one after another. -/
theorem adv_eq_comp (a b c : Amount) :
    (fun s : Word => adv s a b c) =
      (fun t : Word => t ^^^ shl64 t c.toNat) ∘ (fun t : Word => t ^^^ shr64 t b.toNat) ∘
        fun t : Word => t ^^^ shl64 t a.toNat := rfl

/-- `ADV` of zero is zero, for every triplet (40_generator.md R72). -/
@[simp] theorem adv_zero (a b c : Amount) : adv 0#64 a b c = 0#64 := by simp [adv]

/-- A triplet with an amount of 0 clears every word (40_generator.md R71). -/
theorem adv_of_amount_eq_zero {a b c : Amount} (h : a = 0#32 ∨ b = 0#32 ∨ c = 0#32) (s : Word) :
    adv s a b c = 0#64 := by
  rcases h with rfl | rfl | rfl
  · simp [adv]
  · simp [adv]
  · simp [adv]

/-- `ADV` is a bijection where no amount is 0: a composition of three bijections (40_generator.md R75). -/
theorem adv_bijective {a b c : Amount} (ha : a ≠ 0#32) (hb : b ≠ 0#32) (hc : c ≠ 0#32) :
    Function.Bijective fun s : Word => adv s a b c := by
  have one_le {n : Amount} (hn : n ≠ 0#32) : 1 ≤ n.toNat :=
    Nat.pos_of_ne_zero fun h => hn (BitVec.eq_of_toNat_eq h)
  rw [adv_eq_comp]
  exact (xor_shl64_bijective (one_le hc)).comp
    ((xor_shr64_bijective (one_le hb)).comp (xor_shl64_bijective (one_le ha)))

/-! ### The sequence (40_generator.md R73) -/

/-- With an amount of 0 every word of the sequence is zero (40_generator.md R71). -/
theorem genWord_of_amount_eq_zero {a b c : Amount} (h : a = 0#32 ∨ b = 0#32 ∨ c = 0#32) (s : Word) (n : Nat) :
    genWord s a b c n = 0#64 := by
  cases n with
  | zero => exact adv_of_amount_eq_zero h s
  | succ n => exact adv_of_amount_eq_zero h _

/-- From a zero seed every word of the sequence is zero (40_generator.md R72). -/
@[simp] theorem genWord_zero_seed (a b c : Amount) (n : Nat) : genWord 0#64 a b c n = 0#64 := by
  induction n with
  | zero => exact adv_zero a b c
  | succ n ih => rw [genWord, ih, adv_zero]

/-- The sequence from the state that `n` words leave is the sequence from word `n` on. -/
theorem genWord_genAfter (s : Word) (a b c : Amount) (n k : Nat) :
    genWord (genAfter s a b c n) a b c k = genWord s a b c (n + k) := by
  induction k with
  | zero => exact adv_genAfter s a b c n
  | succ k ih => rw [genWord, ih, ← Nat.add_assoc, genWord]

/-- The sequence from the first word is the sequence from word 1 on. -/
theorem genWord_adv (s : Word) (a b c : Amount) (k : Nat) :
    genWord (adv s a b c) a b c k = genWord s a b c (k + 1) := by
  rw [Nat.add_comm]
  exact genWord_genAfter s a b c 1 k

/-- The state that `n` words leave after the first word is the state that `n + 1` words leave. -/
theorem genAfter_adv (s : Word) (a b c : Amount) (n : Nat) :
    genAfter (adv s a b c) a b c n = genAfter s a b c (n + 1) := by
  cases n with
  | zero => rfl
  | succ n => exact genWord_adv s a b c n

/-- The table of a zero seed holds zeros (41_table_build.md R86). -/
theorem table_zero_seed (a b c : Amount) : table 0#64 a b c = Vector.replicate 128 0#64 := by
  ext k hk
  simp [table]

/-! ### The statements about the words -/

/-- Settles O15: the corners of one step, and with an amount of 0 each word of the sequence is a word `ADV` cleared. -/
theorem shiftAmountCorners : Obligations.ShiftAmountCorners :=
  ⟨fun t _ => xor_shift_of_le t, xor_shift_zero, fun s _ _ _ h => genWord_of_amount_eq_zero h s,
    by decide, by decide, by decide, by decide⟩

/-- Settles O17: the steps recover their word bit by bit, `ADV` composes three of them, and a bijection that fixes zero
takes no other word to it. -/
theorem advIsBijective : Obligations.AdvIsBijective := by
  refine ⟨fun n hn => ⟨xor_shl64_bijective hn, xor_shr64_bijective hn⟩, fun a b c ha hb hc => ?_,
    fun t _ => xor_shift_of_le t, not_bijective_of_eq_zero fun t => (xor_shift_zero t).1,
    not_bijective_of_eq_zero fun t => (xor_shift_zero t).2⟩
  have hadv := adv_bijective ha hb hc
  exact ⟨hadv, fun s hs h => hs (hadv.injective (h.trans (adv_zero a b c).symm))⟩

end Sys2Proof.Machine

/-! SUPPORT. One stage of the pipeline and its inverse (42_mixing_pipeline.md R101 to R105). -/

namespace Sys2Proof.Machine

/-- The two branches of `STAGE` are one expression: the selected mask with the stage's own bit set, complemented, is
XORed in (42_mixing_pipeline.md R102). -/
theorem stageXor_eq (i : Round) (selected num : Word) :
    stageXor i selected num = num ^^^ ~~~(selected ||| bitWord i) := by
  have own : num &&& bitWord i = if num.getLsbD i.val then bitWord i else 0#64 := BitVec.and_twoPow num i.val
  have compl (v : Word) : Config.mask64 ^^^ v = ~~~v := BitVec.allOnes_xor
  unfold stageXor
  rw [compl, compl, stageBit_eq, own]
  cases num.getLsbD i.val with
  | false => simp
  | true => simp

/-- `STAGE` on a table, as one expression (42_mixing_pipeline.md R102). -/
theorem stage_eq (t : Table) (i : Round) (num : Word) :
    stage t i num = num ^^^ ~~~(t[maskIndex i num] ||| bitWord i) := stageXor_eq i _ num

/-- A stage keeps its own bit (42_mixing_pipeline.md R104). -/
theorem stage_getLsbD_own (t : Table) (i : Round) (num : Word) :
    (stage t i num).getLsbD i.val = num.getLsbD i.val := by
  have own : (bitWord i).getLsbD i.val = true := by rw [bitWord_getLsbD, decide_eq_true rfl]
  rw [stage_eq, BitVec.getLsbD_xor, BitVec.getLsbD_not, BitVec.getLsbD_or, own]
  simp

/-- A stage selects the same entry on its own output (42_mixing_pipeline.md R104). -/
theorem maskIndex_stage (t : Table) (i : Round) (num : Word) : maskIndex i (stage t i num) = maskIndex i num :=
  Fin.ext (by rw [maskIndex_val, maskIndex_val, stage_getLsbD_own])

/-- A stage is its own inverse: on its output it XORs the same word in again (42_mixing_pipeline.md R105). -/
theorem stage_involutive (t : Table) (i : Round) : Function.Involutive (stage t i) := fun num =>
  calc stage t i (stage t i num)
    _ = stage t i num ^^^ ~~~(t[maskIndex i num] ||| bitWord i) := by
      simp only [stage_eq t i (stage t i num), maskIndex_stage]
    _ = num ^^^ ~~~(t[maskIndex i num] ||| bitWord i) ^^^ ~~~(t[maskIndex i num] ||| bitWord i) := by
      rw [← stage_eq]
    _ = num := by rw [BitVec.xor_assoc, BitVec.xor_self, BitVec.xor_zero]

/-- The stages of any rounds, for any table, are a bijection on the words (42_mixing_pipeline.md R101). -/
theorem stages_bijective (t : Table) (is : List Round) : Function.Bijective (stages t is) := by
  induction is with
  | nil => exact Function.bijective_id
  | cons i is ih => exact ih.comp (stage_involutive t i).bijective

end Sys2Proof.Machine

/-! SUPPORT. What GLOAD, GADV and BUILD leave on the block, and sequences of them (40_generator.md R66, R70, R72, R73;
41_table_build.md R82). -/

namespace Sys2Proof.Machine

open Sys2Proof.Laws

/-! ### The generator's commands -/

/-- Drawing a word and answering it leaves the triplet as it is. -/
theorem State.holdsGen.draw {s : State} {w : Word} {a b c : Amount} (hg : s.holdsGen w a b c) (v : Word) :
    ((s.setGen v).respond .ok v).holdsGen v a b c := by
  obtain ⟨-, ha, hb, hc⟩ := hg
  exact ⟨rfl, ha, hb, hc⟩

/-- GADV in SEEDED (40_generator.md R70). -/
theorem exec_gadv_of_seeded {s : State} {w : Word} {a b c : Amount} (hp : s.phase = .seeded)
    (hg : s.holdsGen w a b c) :
    exec .gadv s = .next ((s.setGen (adv w a b c)).respond .ok (adv w a b c)) := by
  obtain ⟨hw, ha, hb, hc⟩ := hg
  exact (requirePhase_of_eq hp _).trans (readGen_some hw ha hb hc _)

/-- After an accepted GLOAD the block is SEEDED and the generator holds GLOAD's operands. -/
theorem exec_gload_seeds {s : State} (hp : s.phase = .empty) (x : Word) (a b c : Amount) :
    ∃ t, exec (.gload x a b c) s = .next t ∧ t.rsp = some ⟨.ok, 0#64⟩ ∧ t.phase = .seeded ∧ t.holdsGen x a b c :=
  ⟨_, exec_gload_of_empty hp x a b c, rfl, rfl, rfl, rfl, rfl, rfl⟩

/-- `n + 1` GADV in SEEDED answer and leave `w_n`, and change nothing else (40_generator.md R73). -/
theorem execAll_gadv_of_seeded {s : State} {w : Word} {a b c : Amount} (hp : s.phase = .seeded)
    (hg : s.holdsGen w a b c) (n : Nat) :
    execAll (List.replicate (n + 1) .gadv) s =
      .next ((s.setGen (genWord w a b c n)).respond .ok (genWord w a b c n)) := by
  induction n with
  | zero => exact execAll_cons_of_next (exec_gadv_of_seeded hp hg) []
  | succ n ih =>
    rw [List.replicate_succ', execAll_append_of_next ih]
    exact execAll_cons_of_next (exec_gadv_of_seeded (by simpa using hp) (hg.draw _)) []

/-- After `n` GADV, none included, the block is still SEEDED and `n` words are drawn. -/
theorem execAll_gadv_keeps_seeded {s : State} {w : Word} {a b c : Amount} (hp : s.phase = .seeded)
    (hg : s.holdsGen w a b c) (n : Nat) :
    ∃ u, execAll (List.replicate n .gadv) s = .next u ∧ u.phase = .seeded ∧
      u.holdsGen (genAfter w a b c n) a b c := by
  cases n with
  | zero => exact ⟨s, rfl, hp, hg⟩
  | succ n => exact ⟨_, execAll_gadv_of_seeded hp hg n, hp, hg.draw _⟩

/-! ### BUILD on any table -/

/-- BUILD's loop leaves the state of as many words as it has entries to write. -/
theorem buildLoop_fst (a b c : Amount) (ks : List MaskIndex) (w : Word) (m : Memory) :
    (buildLoop a b c ks w m).1 = genAfter w a b c ks.length := by
  induction ks generalizing w m with
  | nil => rfl
  | cons k ks ih => rw [buildLoop, ih, genAfter_adv, List.length_cons]

/-- BUILD's loop over different entries writes word `j` to the `j`-th of them, whatever the table held before. -/
theorem buildLoop_read_getElem (a b c : Amount) {ks : List MaskIndex} (hks : ks.Nodup) (w : Word) (m : Memory)
    {j : Nat} (hj : j < ks.length) :
    Memory.read (buildLoop a b c ks w m).2 ks[j].val = some (genWord w a b c j &&& keep ks[j]) := by
  induction ks generalizing w m j with
  | nil => exact absurd hj (Nat.not_lt_zero j)
  | cons k ks ih =>
    obtain ⟨hk, hks⟩ := List.nodup_cons.1 hks
    cases j with
    | zero =>
      have hother : ∀ k' ∈ ks, k.val ≠ k'.val := fun k' hk' h => hk (Fin.ext h ▸ hk')
      exact (buildLoop_read_other a b c ks _ _ hother).trans (Memory.read_write_same m k.val _)
    | succ j =>
      rw [← genWord_adv]
      exact ih hks _ _ (Nat.lt_of_succ_lt_succ hj)

/-- BUILD's loop fills all 128 entries with `TABLE(w, a, b, c)`, whatever the table held before (41_table_build.md
R82). -/
theorem buildLoop_holds (w : Word) (a b c : Amount) (m : Memory) :
    Memory.holds (buildLoop a b c (List.finRange 128) w m).2 (table w a b c) := by
  intro k
  have h := buildLoop_read_getElem a b c (List.nodup_finRange 128) w m (j := k.val) (by simp)
  simpa [table] using h

/-- BUILD in SEEDED, whatever the table held before (41_table_build.md R82). -/
theorem exec_build_fills {s : State} {w : Word} {a b c : Amount} (hp : s.phase = .seeded)
    (hg : s.holdsGen w a b c) :
    ∃ m, exec .build s =
        .next ((((s.setGen (tableState w a b c)).setMasks m).setPhase .built).respond .ok 0#64) ∧
      Memory.holds m (table w a b c) := by
  obtain ⟨hw, ha, hb, hc⟩ := hg
  have hlast : (buildLoop a b c (List.finRange 128) w s.masks).1 = tableState w a b c := by
    rw [buildLoop_fst, List.length_finRange]
    rfl
  refine ⟨(buildLoop a b c (List.finRange 128) w s.masks).2, ?_, buildLoop_holds w a b c s.masks⟩
  rw [← hlast]
  exact (requirePhase_of_eq hp _).trans (readGen_some hw ha hb hc _)

/-! ### The statements about the commands -/

/-- Settles O12: the accepted GLOAD by its law, the rejection by the phase check, and a GADV on what GLOAD leaves. -/
theorem gloadLoadsGenerator : Obligations.GloadLoadsGenerator := by
  refine ⟨fun s x a b c hp => exec_gload_of_empty hp x a b c, fun s x a b c hp => exec_of_phase_ne rfl hp,
    fun s x a b c hp => ?_, fun x a b c => ⟨cmdOp_bundleOf .., rfl⟩⟩
  obtain ⟨t, ht, -, hseeded, hg⟩ := exec_gload_seeds hp x a b c
  exact ⟨t, _, ht, exec_gadv_of_seeded hseeded hg, rfl⟩

/-- Settles O13: the accepted GADV by its law, the rejection by the phase check, and BUILD on what GADV leaves. -/
theorem gadvAdvancesGenerator : Obligations.GadvAdvancesGenerator := by
  refine ⟨fun s w a b c hp hg => exec_gadv_of_seeded hp hg, fun s hp => exec_of_phase_ne rfl hp,
    fun s w a b c hp hg => ?_, cmdOp_bundleOf .., rfl, by decide⟩
  obtain ⟨m, hbuild, hm⟩ := exec_build_fills (by simpa using hp) (hg.draw (adv w a b c))
  exact ⟨_, _, exec_gadv_of_seeded hp hg, hbuild, hm⟩

/-- Settles O14: each step is XOR with a shift, and both shifts are known on the numbers; the block by GADV's law. -/
theorem advIsThreeXorShifts : Obligations.AdvIsThreeXorShifts := by
  refine ⟨fun s a b c => ?_, fun st s a b c hp hg => ⟨_, exec_gadv_of_seeded hp hg, rfl, rfl⟩⟩
  simp only [adv, BitVec.toNat_xor, shl64_toNat, shr64_toNat]

/-- Settles O16: a zero seed makes every word of the sequence zero, so every GADV answers zero and the table is the zero
table; MAP over any table is a bijection. -/
theorem zeroSeedIsFixedPoint : Obligations.ZeroSeedIsFixedPoint := by
  refine ⟨adv_zero, fun s a b c hp => ?_, stages_bijective _ rounds⟩
  obtain ⟨t, ht, hrsp, hseeded, hg⟩ := exec_gload_seeds hp 0#64 a b c
  obtain ⟨m, hbuild, hm⟩ := exec_build_fills hseeded hg
  refine ⟨t, ht, hrsp, fun n => ⟨_, execAll_gadv_of_seeded hseeded hg n, ?_⟩, _, hbuild, ?_⟩
  · rw [State.respond_rsp, genWord_zero_seed]
  · rw [← table_zero_seed a b c]
    exact hm

/-- Settles O18: the words GADV returns by induction on their number; BUILD after `n` GADV goes on from the state that `n`
words leave. -/
theorem advanceStepsReturnTheSequence : Obligations.AdvanceStepsReturnTheSequence := by
  intro s seed a b c hp
  obtain ⟨t, ht, -, hseeded, hg⟩ := exec_gload_seeds hp seed a b c
  refine ⟨t, ht, fun n => ⟨_, execAll_gadv_of_seeded hseeded hg n, rfl, rfl⟩, fun n => ?_⟩
  obtain ⟨u, hu, huseeded, hug⟩ := execAll_gadv_keeps_seeded hseeded hg n
  obtain ⟨m, hbuild, hm⟩ := exec_build_fills huseeded hug
  refine ⟨_, (execAll_append_of_next hu).trans (execAll_cons_of_next hbuild []),
    congrArg some (genWord_genAfter seed a b c n 127), fun k => (hm k).trans (congrArg some ?_)⟩
  simp [table, genWord_genAfter]

end Sys2Proof.Machine

/-! SUPPORT. The table's construction: its masks and its words bit by bit, the words the commands GLOAD, GADV and BUILD
put in it, and the transforms of a table that was built (41_table_build.md R80 to R87). -/

namespace Sys2Proof.Machine

open Sys2Proof.Laws

/-! ### The masks and the entries (41_table_build.md R80, R81, R84) -/

/-- Two entries belong to a round, numbered from twice the round on (20_memory.md R35). -/
theorem roundOf_eq_iff {k : MaskIndex} {r : Round} : roundOf k = r ↔ k.val = 2 * r.val ∨ k.val = 2 * r.val + 1 := by
  have hval : (roundOf k).val = k.val / 2 := Nat.shiftRight_eq_div_pow k.val 1
  rw [Fin.ext_iff, hval]
  omega

/-- The entry a stage reads belongs to the stage's round (20_memory.md R36). -/
theorem roundOf_maskIndex (i : Round) (num : Word) : roundOf (maskIndex i num) = i := by
  rw [roundOf_eq_iff, maskIndex_val]
  cases num.getLsbD i.val with
  | false => exact .inl rfl
  | true => exact .inr rfl

/-- The bits of `KEEP(k)` (41_table_build.md R80). -/
theorem keep_getLsbD (k : MaskIndex) {j : Nat} (hj : j < 64) :
    (keep k).getLsbD j = decide (j ≠ k.val >>> 1) := by
  have hcompl : keep k = ~~~bitWord (roundOf k) := BitVec.xor_allOnes
  rw [hcompl, BitVec.getLsbD_not, bitWord_getLsbD, decide_eq_true hj, Bool.true_and, decide_not]
  rfl

/-- `KEEP` depends on the round alone (41_table_build.md R80). -/
theorem keep_eq_of_roundOf_eq {k k' : MaskIndex} (h : roundOf k = roundOf k') : keep k = keep k' := by
  rw [keep, keep, h]

/-- The entries of `TABLE` (41_table_build.md R81). -/
theorem table_getElem (w : Word) (a b c : Amount) (k : MaskIndex) :
    (table w a b c)[k] = genWord w a b c k.val &&& keep k := by
  simp [table]

/-! ### The bits of a table that the transforms see (41_table_build.md R84; 42_mixing_pipeline.md R104) -/

/-- The tables agree but for bit `k >> 1` of each entry `k`. -/
def AgreeButOwnBits (t t' : Table) : Prop :=
  ∀ (k : MaskIndex) (j : Nat), j < 64 → j ≠ k.val >>> 1 → t[k].getLsbD j = t'[k].getLsbD j

/-- A stage does not see the own bit of the entry it reads: it sets that bit before it uses the entry. -/
theorem stage_eq_of_agree {t t' : Table} (h : AgreeButOwnBits t t') (i : Round) (num : Word) :
    stage t i num = stage t' i num := by
  have hround : (maskIndex i num).val >>> 1 = i.val := congrArg Fin.val (roundOf_maskIndex i num)
  have hmask : t[maskIndex i num] ||| bitWord i = t'[maskIndex i num] ||| bitWord i := by
    refine BitVec.eq_of_getLsbD_eq fun j hj => ?_
    rw [BitVec.getLsbD_or, BitVec.getLsbD_or, bitWord_getLsbD]
    by_cases hown : j = i.val
    · simp [hown]
    · rw [h _ j hj (hround ▸ hown)]
  rw [stage_eq, stage_eq, hmask]

/-- Nor do the stages of any rounds. -/
theorem stages_eq_of_agree {t t' : Table} (h : AgreeButOwnBits t t') (is : List Round) (x : Word) :
    stages t is x = stages t' is x := by
  have hstage : (fun num i => stage t i num) = fun num i => stage t' i num :=
    funext fun num => funext fun i => stage_eq_of_agree h i num
  rw [stages, stages, hstage]

/-! ### The transforms of a built table (42_mixing_pipeline.md R98, R100) -/

/-- On a table that holds the words of `t` the stages of any rounds are answered with the pure transform of `t`. -/
theorem transform_of_holds {s : State} {t : Table} (hp : s.phase = .built) (hm : Memory.holds s.masks t)
    (is : List Round) (x : Word) :
    requirePhase .built s (respondWord (runStages s.masks is x) s) = .next (s.respond .ok (stages t is x)) := by
  rw [requirePhase_of_eq hp, runStages_of_reads fun k _ => hm k]
  rfl

/-- MAP on a built table (42_mixing_pipeline.md R98). -/
theorem exec_map_of_holds {s : State} {t : Table} (hp : s.phase = .built) (hm : Memory.holds s.masks t) (x : Word) :
    exec (.map x) s = .next (s.respond .ok (mapF t x)) := transform_of_holds hp hm rounds x

/-- UNMAP on a built table (42_mixing_pipeline.md R100). -/
theorem exec_unmap_of_holds {s : State} {t : Table} (hp : s.phase = .built) (hm : Memory.holds s.masks t) (x : Word) :
    exec (.unmap x) s = .next (s.respond .ok (unmapF t x)) := transform_of_holds hp hm rounds.reverse x

/-! ### Commands issued one after another -/

/-- A sequence that answers has a first command that answers. -/
theorem execAll_cons_next {i : Instr} {is : List Instr} {s t : State} (h : execAll (i :: is) s = .next t) :
    ∃ u, exec i s = .next u ∧ execAll is u = .next t := by
  cases hi : exec i s with
  | next u => exact ⟨u, rfl, (execAll_cons_of_next hi is).symm.trans h⟩
  | fault f => simp [execAll, hi] at h
  | refused r => simp [execAll, hi] at h

/-- The machine runs issued commands as the sequence they are, and has taken all of them at the end (70_reset_and_hazards.md
R149). -/
theorem run_issue {cmds : List Instr} {s t : State} (h : execAll cmds s = .next t) :
    run cmds.length (s.issue cmds) = .next (t.setPort []) := by
  induction cmds generalizing s with
  | nil =>
    cases h
    rfl
  | cons i is ih =>
    obtain ⟨u, hu, hrest⟩ := execAll_cons_next h
    have hstep : step (s.issue (i :: is)) = .next (u.issue is) :=
      (step_of_port_encode rfl).trans (exec_setPort hu _)
    exact (run_succ_of_next hstep is.length).trans (ih hrest)

/-! ### The construction (41_table_build.md R82, R85) -/

/-- What BUILD's loop leaves of any table: the last word drawn in the register, the 128 entries of `TABLE`, every other
index as it was; and of an empty table nothing else (41_table_build.md R82). -/
theorem buildLoop_fills (w : Word) (a b c : Amount) (m : Memory) :
    ∃ m', buildLoop a b c (List.finRange 128) w m = (tableState w a b c, m') ∧ Memory.holds m' (table w a b c) ∧
      (∀ k, 128 ≤ k → Memory.read m' k = Memory.read m k) ∧ (m = [] → m' = Memory.ofTable (table w a b c)) := by
  have hlast : (buildLoop a b c (List.finRange 128) w m).1 = tableState w a b c := by
    rw [buildLoop_fst, List.length_finRange]
    rfl
  refine ⟨(buildLoop a b c (List.finRange 128) w m).2, by rw [← hlast], buildLoop_holds w a b c m,
    fun k hk => ?_, fun hm => ?_⟩
  · exact buildLoop_read_other a b c _ w m fun i _ => Nat.ne_of_gt (i.isLt.trans_le hk)
  · rw [hm, buildLoop_eq_table]

/-- BUILD in SEEDED stores what its loop leaves (41_table_build.md R82). -/
theorem exec_build_of_loop {s : State} {w w' : Word} {a b c : Amount} {m : Memory} (hp : s.phase = .seeded)
    (hg : s.holdsGen w a b c) (h : buildLoop a b c (List.finRange 128) w s.masks = (w', m)) :
    exec .build s = .next ((((s.setGen w').setMasks m).setPhase .built).respond .ok 0#64) := by
  obtain ⟨hw, ha, hb, hc⟩ := hg
  refine (requirePhase_of_eq hp _).trans ((readGen_some hw ha hb hc _).trans ?_)
  rw [h]

/-- GLOAD, `j` GADV and BUILD, from EMPTY and whatever else the block holds, leave the table of the state that `j` words
leave (41_table_build.md R85). -/
theorem execAll_construction {s : State} (hp : s.phase = .empty) (seed : Word) (a b c : Amount) (j : Nat) :
    ∃ t, execAll (.gload seed a b c :: (List.replicate j .gadv ++ [.build])) s = .next t ∧
      t.phase = .built ∧ t.rsp = some ⟨.ok, 0#64⟩ ∧
      t.state = some (tableState (genAfter seed a b c j) a b c) ∧
      Memory.holds t.masks (table (genAfter seed a b c j) a b c) := by
  obtain ⟨l, hload, -, hl, hlg⟩ := exec_gload_seeds hp seed a b c
  obtain ⟨u, hu, huseeded, hug⟩ := execAll_gadv_keeps_seeded hl hlg j
  obtain ⟨m, hbuild, hm⟩ := exec_build_fills huseeded hug
  have hall := (execAll_cons_of_next hload _).trans
    ((execAll_append_of_next hu).trans (execAll_cons_of_next hbuild []))
  exact ⟨_, hall, rfl, rfl, rfl, hm⟩

/-- The same commands issued on the port. -/
theorem run_construction {s : State} (hp : s.phase = .empty) (seed : Word) (a b c : Amount) (j : Nat) :
    ∃ t, run (j + 2) (s.issue (.gload seed a b c :: (List.replicate j .gadv ++ [.build]))) = .next t ∧
      t.phase = .built ∧ t.rsp = some ⟨.ok, 0#64⟩ ∧ Memory.holds t.masks (table (genAfter seed a b c j) a b c) := by
  obtain ⟨t, ht, hphase, hrsp, -, hm⟩ := execAll_construction hp seed a b c j
  have hrun := run_issue ht
  rw [List.length_cons, List.length_append, List.length_replicate] at hrun
  exact ⟨_, hrun, hphase, hrsp, hm⟩

/-! ### The statements about the construction -/

/-- Settles O19: `KEEP` is the complement of one bit, and that bit is the number of the round. -/
theorem keepClearsOneBit : Obligations.KeepClearsOneBit := by
  refine ⟨fun k j hj => keep_getLsbD k hj, fun r k k' hk hk' => keep_eq_of_roundOf_eq ?_,
    by decide, by decide, by decide⟩
  rw [roundOf_eq_iff.2 (.inl hk), roundOf_eq_iff.2 (.inr hk')]

/-- Settles O20: the loop lists the entries in turn, each with the word drawn for it. -/
theorem buildLoopComputesTable : Obligations.BuildLoopComputesTable := by
  refine fun w a b c => ⟨buildLoop_eq_table w a b c, fun k => ?_⟩
  rw [buildLoop_holds w a b c [] k, table_getElem]

/-- Settles O21: BUILD stores what its loop leaves; the rejection by the phase check; the example's numbers by the
formula of the entries. -/
theorem buildFillsTable : Obligations.BuildFillsTable := by
  refine ⟨fun s w a b c hp hg => ?_, fun s hp => exec_of_phase_ne rfl hp, cmdOp_bundleOf .., rfl, ?_, ?_,
    by decide +kernel⟩
  · obtain ⟨m, hloop, hm⟩ := buildLoop_fills w a b c s.masks
    exact ⟨m, exec_build_of_loop hp hg hloop, hm⟩
  · exact (table_getElem _ _ _ _ 0).trans (by decide)
  · exact (table_getElem _ _ _ _ 1).trans (by decide)

/-- Settles O22: `KEEP` clears its bit and passes every other; and every stage sets that bit of the entry it reads. -/
theorem tableBitsAreWordBits : Obligations.TableBitsAreWordBits := by
  refine ⟨fun w a b c k j hj => ?_, ?_, ?_, fun t t' h x => ?_⟩
  · rw [table_getElem, BitVec.getLsbD_and, keep_getLsbD k hj, Bool.and_comm]
  · exact (table_getElem _ _ _ _ 126).trans (by decide +kernel)
  · exact (table_getElem _ _ _ _ 127).trans (by decide +kernel)
  · exact ⟨stages_eq_of_agree h rounds x, stages_eq_of_agree h rounds.reverse x⟩

/-- Settles O23: the run of the construction with no GADV, and with `j + 1`, which leave the word the last one drew. -/
theorem constructionAfterGadv : Obligations.ConstructionAfterGadv :=
  ⟨fun _ seed a b c hp => run_construction hp seed a b c 0,
    fun _ seed a b c j hp => run_construction hp seed a b c (j + 1)⟩

/-- Settles O24: the construction with no GADV, and a zero seed draws zeros only. -/
theorem zeroSeedBuildsZeroTable : Obligations.ZeroSeedBuildsZeroTable := by
  intro s a b c hp
  obtain ⟨t, ht, -, -, hstate, hm⟩ := execAll_construction hp 0#64 a b c 0
  refine ⟨t, ht, hstate.trans (congrArg some (genWord_zero_seed a b c 127)), fun k => (hm k).trans ?_⟩
  simp [genAfter, table_zero_seed]

/-- Settles O25: both constructions leave the table that their operands determine, and the transforms answer from the
table alone. -/
theorem constructionIsDeterministic : Obligations.ConstructionIsDeterministic := by
  intro s s' seed a b c j hp hp'
  obtain ⟨t, ht, hbuilt, -, -, hm⟩ := execAll_construction hp seed a b c j
  obtain ⟨t', ht', hbuilt', -, -, hm'⟩ := execAll_construction hp' seed a b c j
  exact ⟨t, t', ht, ht', fun k => (hm k).trans (hm' k).symm, fun x => ⟨_, _, _, _,
    exec_map_of_holds hbuilt hm x, exec_map_of_holds hbuilt' hm' x, rfl,
    exec_unmap_of_holds hbuilt hm x, exec_unmap_of_holds hbuilt' hm' x, rfl⟩⟩

end Sys2Proof.Machine

/-! SUPPORT. The bits of one stage, its masks XORed in one after another, and the stages in reverse order
(42_mixing_pipeline.md R101 to R108). -/

namespace Sys2Proof.Machine

/-! ### One stage (42_mixing_pipeline.md R102, R104) -/

/-- The entry a stage reads, by its number (20_memory.md R36). -/
theorem maskIndex_eq {i : Round} {num : Word} {k : MaskIndex} (h : k.val = 2 * i.val + (num.getLsbD i.val).toNat) :
    maskIndex i num = k := Fin.ext ((maskIndex_val i num).trans h.symm)

/-- Every bit but its own a stage replaces by the exclusive-nor with the mask's bit (42_mixing_pipeline.md R102). -/
theorem stage_getLsbD_other (t : Table) (i : Round) (num : Word) {j : Nat} (hj : j < 64) (hother : j ≠ i.val) :
    (stage t i num).getLsbD j = !(num.getLsbD j ^^ t[maskIndex i num].getLsbD j) := by
  have hbit : (bitWord i).getLsbD j = false := by rw [bitWord_getLsbD, decide_eq_false hother]
  rw [stage_eq, BitVec.getLsbD_xor, BitVec.getLsbD_not, BitVec.getLsbD_or, hbit, Bool.or_false,
    decide_eq_true hj, Bool.true_and, Bool.xor_not]

/-- Settles O28: the single expression is the model's law of a stage, and its bits follow from it. -/
theorem stageIsSingleExpression : Obligations.StageIsSingleExpression := by
  intro t i num k hk
  cases maskIndex_eq hk
  exact ⟨stage_eq t i num, stage_getLsbD_own t i num, fun j hj hother => stage_getLsbD_other t i num hj hother⟩

/-- Settles O29: a stage keeps its own bit, hence its selection, and it sets that bit of the mask before it uses it. -/
theorem stageKeepsOwnBit : Obligations.StageKeepsOwnBit :=
  ⟨fun t i num => ⟨stage_getLsbD_own t i num, maskIndex_stage t i num⟩,
    fun _ _ i num hagree => stage_eq_of_agree hagree i num⟩

/-- Settles O30: the second application selects the same entry, so it XORs the same word in again. -/
theorem stageIsInvolution : Obligations.StageIsInvolution := stage_involutive

/-! ### The stages in the opposite order (42_mixing_pipeline.md R101) -/

/-- The stages of a first round and of further rounds. -/
theorem stages_cons (t : Table) (i : Round) (is : List Round) (x : Word) :
    stages t (i :: is) x = stages t is (stage t i x) := rfl

/-- The stages of one list of rounds and then of another. -/
theorem stages_append (t : Table) (is js : List Round) (x : Word) :
    stages t (is ++ js) x = stages t js (stages t is x) := List.foldl_append

/-- Stages undo themselves in the opposite order: the innermost pair cancels first (42_mixing_pipeline.md R101). -/
theorem stages_reverse_stages (t : Table) (is : List Round) (x : Word) :
    stages t is.reverse (stages t is x) = x := by
  induction is generalizing x with
  | nil => rfl
  | cons i is ih =>
    calc stages t (i :: is).reverse (stages t (i :: is) x)
      _ = stage t i (stages t is.reverse (stages t is (stage t i x))) := by
        rw [List.reverse_cons, stages_append, stages_cons t i is]
        rfl
      _ = stage t i (stage t i x) := by rw [ih]
      _ = x := stage_involutive t i x

/-- UNMAPF undoes MAPF (42_mixing_pipeline.md R101). -/
@[simp] theorem unmapF_mapF (t : Table) (x : Word) : unmapF t (mapF t x) = x := stages_reverse_stages t rounds x

/-- MAPF undoes UNMAPF (42_mixing_pipeline.md R101). -/
@[simp] theorem mapF_unmapF (t : Table) (x : Word) : mapF t (unmapF t x) = x := by
  have h := stages_reverse_stages t rounds.reverse x
  rwa [List.reverse_reverse] at h

/-- Settles O33: the two compositions cancel pair by pair, and the block answers with the pure transforms and keeps its
table between the two commands. -/
theorem unmapInvertsMap : Obligations.UnmapInvertsMap := by
  refine ⟨fun t x => ⟨unmapF_mapF t x, mapF_unmapF t x⟩,
    fun t => ⟨stages_bijective t rounds, stages_bijective t rounds.reverse⟩, fun s t x hp hm => ⟨?_, ?_⟩⟩
  · refine ⟨_, _, mapF t x, exec_map_of_holds hp hm x, rfl,
      exec_unmap_of_holds (s := s.respond .ok (mapF t x)) hp hm (mapF t x), ?_⟩
    rw [State.respond_rsp, unmapF_mapF]
  · refine ⟨_, _, unmapF t x, exec_unmap_of_holds hp hm x, rfl,
      exec_map_of_holds (s := s.respond .ok (unmapF t x)) hp hm (unmapF t x), ?_⟩
    rw [State.respond_rsp, mapF_unmapF]

/-! ### The closed form over the masks read (42_mixing_pipeline.md R106, R108) -/

/-- The word with the words `f k` of a list XORed in. -/
def xorAll {α : Type} (f : α → Word) (ks : List α) (x : Word) : Word := ks.foldl (fun acc k => acc ^^^ f k) x

/-- Words XORed in after another word are XORed in before it. -/
theorem xorAll_xor {α : Type} (f : α → Word) (ks : List α) (x y : Word) :
    xorAll f ks (x ^^^ y) = xorAll f ks x ^^^ y := by
  induction ks generalizing x with
  | nil => rfl
  | cons k ks ih =>
    calc xorAll f ks (x ^^^ y ^^^ f k)
      _ = xorAll f ks (x ^^^ f k ^^^ y) := congrArg (xorAll f ks) (by ac_rfl)
      _ = xorAll f ks (x ^^^ f k) ^^^ y := ih _

/-- Zero words XORed in change nothing. -/
theorem xorAll_zero {α : Type} {f : α → Word} (hf : ∀ k, f k = 0#64) (ks : List α) (x : Word) :
    xorAll f ks x = x := by
  induction ks with
  | nil => rfl
  | cons k ks ih => rw [xorAll, List.foldl_cons, hf, BitVec.xor_zero]; exact ih

/-- Every entry `k` has its own bit `k >> 1` zero, as BUILD leaves it (41_table_build.md R84). -/
def OwnBitsClear (t : Table) : Prop := ∀ k : MaskIndex, t[k].getLsbD (k.val >>> 1) = false

/-- A zero table has its own bits clear. -/
theorem ownBitsClear_of_zero {t : Table} (h : ∀ k : MaskIndex, t[k] = 0#64) : OwnBitsClear t := fun k => by
  rw [h k, BitVec.getLsbD_zero]

/-- A built table has its own bits clear (41_table_build.md R84). -/
theorem ownBitsClear_table (w : Word) (a b c : Amount) : OwnBitsClear (table w a b c) := fun k => by
  have hround : k.val >>> 1 < 64 := (roundOf k).isLt
  rw [table_getElem, BitVec.getLsbD_and, keep_getLsbD k hround]
  simp

/-- Where the selected mask's own bit is clear, a stage XORs in the mask and then every bit but its own. -/
theorem stage_eq_of_ownBitsClear {t : Table} (h : OwnBitsClear t) (i : Round) (num : Word) :
    stage t i num = num ^^^ t[maskIndex i num] ^^^ ~~~bitWord i := by
  have hround : (maskIndex i num).val >>> 1 = i.val := congrArg Fin.val (roundOf_maskIndex i num)
  have hown : t[maskIndex i num].getLsbD i.val = false := hround ▸ h (maskIndex i num)
  have hor : t[maskIndex i num] ||| bitWord i = t[maskIndex i num] ^^^ bitWord i := by
    refine BitVec.eq_of_getLsbD_eq fun j _ => ?_
    rw [BitVec.getLsbD_or, BitVec.getLsbD_xor, bitWord_getLsbD]
    by_cases hj : j = i.val
    · rw [hj, hown, Bool.false_or, Bool.false_xor]
    · rw [decide_eq_false hj, Bool.or_false, Bool.xor_false]
  rw [stage_eq, hor, BitVec.xor_assoc, BitVec.not_xor_right]

/-- The stages of any rounds XOR in the masks they read, and for each round every bit but its own (42_mixing_pipeline.md
R108). -/
theorem stages_eq_xorAll {t : Table} (h : OwnBitsClear t) (is : List Round) (x : Word) :
    stages t is x =
      xorAll (fun k : MaskIndex => t[k]) (readIndices t is x) x ^^^ xorAll (fun i => ~~~bitWord i) is 0#64 := by
  induction is generalizing x with
  | nil => exact (BitVec.xor_zero).symm
  | cons i is ih =>
    have hflips : xorAll (fun i => ~~~bitWord i) (i :: is) 0#64 =
        xorAll (fun i => ~~~bitWord i) is 0#64 ^^^ ~~~bitWord i := xorAll_xor _ is _ _
    have hmasks : xorAll (fun k : MaskIndex => t[k]) (readIndices t is (stage t i x)) (stage t i x) =
        xorAll (fun k : MaskIndex => t[k]) (readIndices t (i :: is) x) x ^^^ ~~~bitWord i :=
      (congrArg (xorAll _ _) (stage_eq_of_ownBitsClear h i x)).trans (xorAll_xor ..)
    rw [stages_cons, ih, hmasks, hflips, BitVec.xor_assoc, BitVec.xor_comm (~~~bitWord i)]

/-- Each bit is flipped by the 63 rounds that do not own it, an odd number, in either order (42_mixing_pipeline.md
R106). -/
theorem xorAll_flips_rounds :
    xorAll (fun i => ~~~bitWord i) rounds 0#64 = BitVec.allOnes 64 ∧
      xorAll (fun i => ~~~bitWord i) rounds.reverse 0#64 = BitVec.allOnes 64 := by decide +kernel

/-- The closed form of MAPF (42_mixing_pipeline.md R108). -/
theorem mapF_eq_not_xorAll {t : Table} (h : OwnBitsClear t) (x : Word) :
    mapF t x = ~~~xorAll (fun k : MaskIndex => t[k]) (readIndices t rounds x) x := by
  rw [mapF, stages_eq_xorAll h, xorAll_flips_rounds.1, BitVec.xor_allOnes]

/-- The closed form of UNMAPF (42_mixing_pipeline.md R108). -/
theorem unmapF_eq_not_xorAll {t : Table} (h : OwnBitsClear t) (x : Word) :
    unmapF t x = ~~~xorAll (fun k : MaskIndex => t[k]) (readIndices t rounds.reverse x) x := by
  rw [unmapF, stages_eq_xorAll h, xorAll_flips_rounds.2, BitVec.xor_allOnes]

/-- Settles O35: each stage XORs in the mask it reads and every bit but its own, and the latter make the complement. -/
theorem transformsHaveClosedForm : Obligations.TransformsHaveClosedForm :=
  ⟨fun _ x hclear => ⟨mapF_eq_not_xorAll hclear x, unmapF_eq_not_xorAll hclear x⟩, ownBitsClear_table⟩

/-- MAPF of a zero table is the complement (42_mixing_pipeline.md R106). -/
theorem mapF_of_zero {t : Table} (h : ∀ k : MaskIndex, t[k] = 0#64) (x : Word) : mapF t x = ~~~x := by
  rw [mapF_eq_not_xorAll (ownBitsClear_of_zero h), xorAll_zero h]

/-- UNMAPF of a zero table is the complement (42_mixing_pipeline.md R106). -/
theorem unmapF_of_zero {t : Table} (h : ∀ k : MaskIndex, t[k] = 0#64) (x : Word) : unmapF t x = ~~~x := by
  rw [unmapF_eq_not_xorAll (ownBitsClear_of_zero h), xorAll_zero h]

/-- Settles O34: the stage by its single expression, the transforms by the closed form, whose masks are all zero. -/
theorem zeroTableMapsToComplement : Obligations.ZeroTableMapsToComplement := by
  refine ⟨fun t hzero => ⟨fun i num => ?_, fun x => ⟨mapF_of_zero hzero x, unmapF_of_zero hzero x, ?_⟩⟩, ?_⟩
  · rw [stage_eq, hzero, BitVec.zero_or]
    rfl
  · rw [mapF_of_zero hzero, mapF_of_zero hzero, BitVec.not_not]
  · exact (mapF_of_zero (fun k => Vector.getElem_replicate k.isLt) _).trans (by decide)

end Sys2Proof.Machine

/-! SUPPORT. The transforms as affine maps over the two-element field (42_mixing_pipeline.md R112). -/

namespace Sys2Proof.Machine

/-! ### Affine maps on the words -/

/-- The map is affine over the two-element field. -/
def IsAffine (f : Word → Word) : Prop := ∀ x y, f (x ^^^ y) = f x ^^^ f y ^^^ f 0#64

/-- The identity is affine. -/
theorem isAffine_id : IsAffine id := fun _ _ => (BitVec.xor_zero).symm

/-- Affine maps compose. -/
theorem IsAffine.comp {f g : Word → Word} (hg : IsAffine g) (hf : IsAffine f) : IsAffine (g ∘ f) := fun x y =>
  calc g (f (x ^^^ y))
    _ = g (f x) ^^^ g (f y) ^^^ g 0#64 ^^^ g (f 0#64) ^^^ g 0#64 := by rw [hf, hg, hg]
    _ = g (f x) ^^^ g (f y) ^^^ g (f 0#64) ^^^ (g 0#64 ^^^ g 0#64) := by ac_rfl
    _ = g (f x) ^^^ g (f y) ^^^ g (f 0#64) := by rw [BitVec.xor_self, BitVec.xor_zero]

/-- A constant and a linear map XORed into the argument make an affine map. -/
theorem isAffine_xor_linear {l : Word → Word} (hl : ∀ x y, l (x ^^^ y) = l x ^^^ l y) (c : Word) :
    IsAffine fun x => x ^^^ c ^^^ l x := fun x y => by
  have hzero : l 0#64 = 0#64 := by
    have h := hl 0#64 0#64
    rwa [BitVec.xor_self, BitVec.xor_self] at h
  calc (x ^^^ y) ^^^ c ^^^ l (x ^^^ y)
    _ = x ^^^ y ^^^ c ^^^ (l x ^^^ l y) ^^^ (c ^^^ c) := by rw [hl, BitVec.xor_self, BitVec.xor_zero]
    _ = (x ^^^ c ^^^ l x) ^^^ (y ^^^ c ^^^ l y) ^^^ c := by ac_rfl
    _ = (x ^^^ c ^^^ l x) ^^^ (y ^^^ c ^^^ l y) ^^^ (0#64 ^^^ c ^^^ l 0#64) := by
      rw [hzero, BitVec.xor_zero, BitVec.zero_xor]

/-! ### An affine map from its values at 0 and at the single-bit words -/

/-- The word with the bits of `x` below bit `n`, and 0 above. -/
def lowBits (x : Word) (n : Nat) : Word := (x.setWidth n).setWidth 64

/-- The bits of it. -/
theorem lowBits_getLsbD (x : Word) (n : Nat) {j : Nat} (hj : j < 64) :
    (lowBits x n).getLsbD j = (decide (j < n) && x.getLsbD j) := by
  rw [lowBits, BitVec.getLsbD_setWidth, BitVec.getLsbD_setWidth, decide_eq_true hj, Bool.true_and]

/-- Below bit 0 there is none. -/
theorem lowBits_zero (x : Word) : lowBits x 0 = 0#64 := by
  rw [lowBits, BitVec.of_length_zero (x := x.setWidth 0), BitVec.setWidth_zero]

/-- Below bit 64 are all. -/
theorem lowBits_all (x : Word) : lowBits x 64 = x := (BitVec.setWidth_eq _).trans (BitVec.setWidth_eq x)

/-- The next bit, where it is set, is XORed in. -/
theorem lowBits_succ (x : Word) (n : Nat) :
    lowBits x (n + 1) = if x.getLsbD n then lowBits x n ^^^ 1#64 <<< n else lowBits x n := by
  have hword (j : Nat) : (1#64 <<< n).getLsbD j = (decide (n < 64) && decide (n = j)) := BitVec.getLsbD_twoPow n j
  refine BitVec.eq_of_getLsbD_eq fun j hj => ?_
  rw [lowBits_getLsbD x _ hj, apply_ite (fun w : Word => w.getLsbD j), BitVec.getLsbD_xor, lowBits_getLsbD x _ hj,
    hword]
  rcases Nat.lt_trichotomy j n with hlt | rfl | hgt
  · simp [hlt, Nat.lt_succ_of_lt hlt, Nat.ne_of_gt hlt]
  · cases hbit : x.getLsbD j with
    | false => simp
    | true => simp [hj]
  · simp [Nat.not_lt_of_gt hgt, Nat.not_lt.2 (Nat.succ_le_of_lt hgt), Nat.ne_of_lt hgt]

/-- An affine map bit by bit, from the lowest on. -/
theorem IsAffine.apply_lowBits {f : Word → Word} (hf : IsAffine f) (x : Word) (n : Nat) :
    f (lowBits x n) = (List.range n).foldl
      (fun acc j => if x.getLsbD j then acc ^^^ (f (1#64 <<< j) ^^^ f 0#64) else acc) (f 0#64) := by
  induction n with
  | zero => exact congrArg f (lowBits_zero x)
  | succ n ih =>
    rw [List.range_succ, List.foldl_append, ← ih, lowBits_succ, List.foldl_cons, List.foldl_nil]
    cases x.getLsbD n with
    | false => rfl
    | true => exact (hf _ _).trans (BitVec.xor_assoc ..)

/-- An affine map is fixed by its values at 0 and at the 64 single-bit words (42_mixing_pipeline.md R112). -/
theorem IsAffine.eq_foldl {f : Word → Word} (hf : IsAffine f) (x : Word) :
    f x = (List.range 64).foldl
      (fun acc j => if x.getLsbD j then acc ^^^ (f (1#64 <<< j) ^^^ f 0#64) else acc) (f 0#64) := by
  rw [← hf.apply_lowBits, lowBits_all]

/-! ### The stages and the transforms -/

/-- Passing from one mask to the other of a pair is XORing in their difference (42_mixing_pipeline.md R112). -/
theorem not_or_eq_xor (m m' bit : Word) : ~~~(m' ||| bit) = ~~~(m ||| bit) ^^^ ((m ^^^ m') &&& ~~~bit) := by
  have truth : ∀ p q b : Bool, (!(q || b)) = ((!(p || b)) ^^ ((p ^^ q) && !b)) := by decide
  refine BitVec.eq_of_getLsbD_eq fun j hj => ?_
  simp only [BitVec.getLsbD_not, BitVec.getLsbD_or, BitVec.getLsbD_xor, BitVec.getLsbD_and, decide_eq_true hj,
    Bool.true_and]
  exact truth _ _ _

/-- A stage by its two constants `K(i)` and `D(i)`, of which the selecting bit chooses the second (42_mixing_pipeline.md
R112). -/
theorem stage_eq_constants (t : Table) (i : Round) (num : Word) {k k' : MaskIndex} (hk : k.val = 2 * i.val)
    (hk' : k'.val = 2 * i.val + 1) :
    stage t i num = num ^^^ ~~~(t[k] ||| bitWord i) ^^^
      (if num.getLsbD i.val then (t[k] ^^^ t[k']) &&& ~~~bitWord i else 0#64) := by
  rw [stage_eq]
  cases hbit : num.getLsbD i.val with
  | false =>
    have hindex : maskIndex i num = k := maskIndex_eq (by rw [hbit]; exact hk)
    simp only [hindex, Bool.false_eq_true, if_false, BitVec.xor_zero]
  | true =>
    have hindex : maskIndex i num = k' := maskIndex_eq (by rw [hbit]; exact hk')
    simp only [hindex, if_true, BitVec.xor_assoc, ← not_or_eq_xor]

/-- A constant chosen by one bit is linear. -/
theorem ite_getLsbD_xor (d x y : Word) (j : Nat) :
    (if (x ^^^ y).getLsbD j then d else 0#64) =
      (if x.getLsbD j then d else 0#64) ^^^ (if y.getLsbD j then d else 0#64) := by
  rw [BitVec.getLsbD_xor]
  cases x.getLsbD j with
  | false => simp
  | true => cases y.getLsbD j with
    | false => simp
    | true => simp

/-- Every stage is affine (42_mixing_pipeline.md R112). -/
theorem isAffine_stage (t : Table) (i : Round) : IsAffine (stage t i) := by
  have hbound : 2 * i.val + 1 < 128 := by omega
  have hconstants := funext fun num =>
    stage_eq_constants t i num (k := ⟨2 * i.val, Nat.lt_of_succ_lt hbound⟩) (k' := ⟨2 * i.val + 1, hbound⟩) rfl rfl
  rw [hconstants]
  exact isAffine_xor_linear (fun x y => ite_getLsbD_xor _ x y i.val) _

/-- So are the stages of any rounds. -/
theorem isAffine_stages (t : Table) (is : List Round) : IsAffine (stages t is) := by
  induction is with
  | nil => exact isAffine_id
  | cons i is ih => exact ih.comp (isAffine_stage t i)

/-- MAPF is affine (42_mixing_pipeline.md R112). -/
theorem isAffine_mapF (t : Table) : IsAffine (mapF t) := isAffine_stages t rounds

/-- UNMAPF is affine (42_mixing_pipeline.md R112). -/
theorem isAffine_unmapF (t : Table) : IsAffine (unmapF t) := isAffine_stages t rounds.reverse

/-- The difference of two values depends on the difference of the arguments alone. -/
theorem IsAffine.apply_xor_apply {f : Word → Word} (hf : IsAffine f) (x y : Word) :
    f x ^^^ f (x ^^^ y) = f 0#64 ^^^ f y :=
  calc f x ^^^ f (x ^^^ y)
    _ = (f x ^^^ f x) ^^^ (f 0#64 ^^^ f y) := by rw [hf]; ac_rfl
    _ = f 0#64 ^^^ f y := by rw [BitVec.xor_self, BitVec.zero_xor]

end Sys2Proof.Machine

/-! SUPPORT. MAP and UNMAP on the block: what they read, what they answer and what they leave (42_mixing_pipeline.md R98,
R100, R110). -/

namespace Sys2Proof.Machine

open Sys2Proof.Laws

/-! ### The entries read, and the answer -/

/-- One entry is read per stage (42_mixing_pipeline.md R98). -/
@[simp] theorem readIndices_length (t : Table) (is : List Round) (x : Word) :
    (readIndices t is x).length = is.length := by
  induction is generalizing x with
  | nil => rfl
  | cons i is ih => exact congrArg (· + 1) (ih _)

/-- There are 64 rounds (42_mixing_pipeline.md R95). -/
@[simp] theorem rounds_length : rounds.length = 64 := List.length_finRange

/-- The entries read decide the answer alone: where they hold the words of `t`, it is the pure transform of `t`
(42_mixing_pipeline.md R98, R100). -/
theorem transform_of_reads {s : State} {t : Table} {is : List Round} {x : Word} (hp : s.phase = .built)
    (hreads : ∀ k ∈ readIndices t is x, Memory.read s.masks k.val = some t[k]) :
    requirePhase .built s (respondWord (runStages s.masks is x) s) = .next (s.respond .ok (stages t is x)) := by
  rw [requirePhase_of_eq hp, runStages_of_reads hreads]
  rfl

/-- MAPF of the example's table at 0 and 1 (95_test_vectors.md sections 4 and 5). -/
theorem mapF_table_seed1 :
    mapF (table 1#64 13#32 7#32 17#32) 0#64 = 0x8F9655542B7BD987#64 ∧
      mapF (table 1#64 13#32 7#32 17#32) 1#64 = 0x976D20E46F48B3CE#64 := by decide +kernel

/-- Settles O36: a stage by its two constants, its affine law from them, and the transforms as compositions of stages;
each example is the column of bit 0, which any two words that differ there alone give. -/
theorem transformsAreAffine : Obligations.TransformsAreAffine := by
  have hcolumn : mapF (table 1#64 13#32 7#32 17#32) 0#64 ^^^ mapF (table 1#64 13#32 7#32 17#32) 1#64 =
      0x18FB75B044336A49#64 := by
    rw [mapF_table_seed1.1, mapF_table_seed1.2]
    rfl
  exact ⟨fun t i num k k' hk hk' => stage_eq_constants t i num hk hk', isAffine_stage,
    fun t x y => ⟨isAffine_mapF t x y, isAffine_unmapF t x y⟩,
    fun t x => ⟨(isAffine_mapF t).eq_foldl x, (isAffine_unmapF t).eq_foldl x⟩,
    hcolumn, ((isAffine_mapF _).apply_xor_apply 2#64 1#64).trans hcolumn⟩

/-- Settles O37: the accepted MAP from the entries it reads, the rejection by the phase check, the example by
evaluation. -/
theorem mapAnswersMapf : Obligations.MapAnswersMapf :=
  ⟨fun _ _ x hp hm => exec_map_of_holds hp hm x, fun _ _ hp => exec_of_phase_ne rfl hp,
    fun _ t x hp => ⟨readIndices_length t rounds x, fun hreads => transform_of_reads hp hreads⟩,
    fun _ => ⟨cmdOp_bundleOf .., rfl⟩, mapF_table_seed1.1⟩

/-- Settles O38: as MAP, over the rounds in descending order; the first example undoes MAP 0. -/
theorem unmapAnswersUnmapf : Obligations.UnmapAnswersUnmapf := by
  refine ⟨fun _ _ x hp hm => exec_unmap_of_holds hp hm x, fun _ _ hp => exec_of_phase_ne rfl hp,
    fun _ t x hp => ⟨readIndices_length t rounds.reverse x, fun hreads => transform_of_reads hp hreads⟩,
    fun _ => ⟨cmdOp_bundleOf .., rfl⟩, ?_, by decide +kernel⟩
  rw [← mapF_table_seed1.1, unmapF_mapF]

/-! ### Sequences of transforms (42_mixing_pipeline.md R110) -/

/-- A transform in BUILT changes the response alone. -/
theorem exec_transform_of_holds {i : Instr} {s : State} {t : Table} (hi : isTransform i = true)
    (hp : s.phase = .built) (hm : Memory.holds s.masks t) : ∃ d, exec i s = .next (s.respond .ok d) := by
  cases i with
  | map x => exact ⟨_, exec_map_of_holds hp hm x⟩
  | unmap x => exact ⟨_, exec_unmap_of_holds hp hm x⟩
  | gload | gadv | build | reserved0 | reserved6 | reserved7 => cases hi

/-- So does any sequence of them. -/
theorem execAll_transforms_of_holds {cmds : List Instr} {s : State} {t : Table} (hp : s.phase = .built)
    (hm : Memory.holds s.masks t) (hcmds : ∀ i ∈ cmds, isTransform i = true) :
    ∃ r, execAll cmds s = .next { s with rsp := r } := by
  induction cmds generalizing s with
  | nil => exact ⟨s.rsp, rfl⟩
  | cons i cmds ih =>
    obtain ⟨hi, hrest⟩ := List.forall_mem_cons.1 hcmds
    obtain ⟨d, hd⟩ := exec_transform_of_holds hi hp hm
    obtain ⟨r, hr⟩ := ih (s := s.respond .ok d) hp hm hrest
    exact ⟨r, (execAll_cons_of_next hd cmds).trans hr⟩

/-- Settles O39: the sequence changes the response alone, and no command reads the response. -/
theorem transformsAreRepeatable : Obligations.TransformsAreRepeatable := by
  intro s t cmds hp hm hcmds
  obtain ⟨r, hr⟩ := execAll_transforms_of_holds hp hm hcmds
  exact ⟨_, hr, rfl, fun x => ⟨exec_rsp (.map x) s r, exec_rsp (.unmap x) s r, _, _,
    exec_map_of_holds (s := { s with rsp := r }) hp hm x, exec_unmap_of_holds (s := { s with rsp := r }) hp hm x⟩⟩

end Sys2Proof.Machine

/-! SUPPORT. Acceptance and rejection: which of a command's outcomes its opcode and the phase select, and what a rejection
leaves (60_exceptions.md R121 to R127). -/

namespace Sys2Proof.Machine

/-! ### Reserved commands -/

/-- A command accepted in no phase is rejected with ILLEGAL in every phase (60_exceptions.md R122). -/
theorem exec_of_reserved {i : Instr} (hi : acceptedPhase i = none) (s : State) :
    exec i s = .next (s.respond .illegal 0#64) := by
  cases i with
  | gload | gadv | build | map | unmap => cases hi
  | reserved0 | reserved6 | reserved7 => exact reject_eq .illegal s

/-- A bundle with a reserved opcode decodes to a command accepted in no phase, whatever its other bits (30_encoding.md
R52). -/
theorem acceptedPhase_decode_of_reserved {cmd : Bundle} (h : cmdOp cmd = 0#3 ∨ cmdOp cmd = 6#3 ∨ cmdOp cmd = 7#3) :
    acceptedPhase (decode cmd) = none := by
  rcases h with h | h | h
  · rw [decode_of_op0 h, acceptedPhase]
  · rw [decode_of_op6 h, acceptedPhase]
  · rw [decode_of_op7 h, acceptedPhase]

/-- Settles O5: a reserved opcode decodes to a command accepted in no phase, and each such command is rejected with
ILLEGAL. -/
theorem reservedOpcodesAreIllegal : Obligations.ReservedOpcodesAreIllegal := by
  refine ⟨fun s cmd rest hport hop => ?_,
    fun s => ⟨exec_of_reserved rfl s, exec_of_reserved rfl s, exec_of_reserved rfl s⟩, rfl⟩
  rw [step_of_port hport]
  exact exec_of_reserved (acceptedPhase_decode_of_reserved hop) _

/-! ### The outcome in each phase (60_exceptions.md R123) -/

/-- A defined command is rejected with PHASE in the two phases other than the one it needs. -/
theorem exec_of_phase_or {i : Instr} {p q r : Phase} {s : State} (hi : acceptedPhase i = some p)
    (h : s.phase = q ∨ s.phase = r) (hq : q ≠ p) (hr : r ≠ p) : exec i s = .next (s.respond .phase 0#64) := by
  rcases h with rfl | rfl
  · exact exec_of_phase_ne hi hq
  · exact exec_of_phase_ne hi hr

/-- In the phase it needs, a command of a block that meets the invariant is answered OK. -/
theorem exec_ok_of_accepted {i : Instr} {s : State} (hs : s.Inv) (hi : acceptedPhase i = some s.phase) :
    ∃ t d, exec i s = .next t ∧ t.rsp = some ⟨.ok, d⟩ := by
  obtain ⟨t, ht, -⟩ := exec_answersInv i hs
  rcases exec_next ht with ⟨hnone, -⟩ | ⟨p, hp, hne, -⟩ | ⟨d, -, hd, -⟩
  · cases hnone.symm.trans hi
  · cases hp.symm.trans hi
    exact absurd rfl hne
  · exact ⟨t, d, ht, hd⟩

/-- So are the two commands that share a phase: GADV and BUILD, MAP and UNMAP. -/
theorem exec_ok_of_both_accepted {i j : Instr} {s : State} (hs : s.Inv) (hi : acceptedPhase i = some s.phase)
    (hj : acceptedPhase j = some s.phase) :
    ∃ t d u e, exec i s = .next t ∧ t.rsp = some ⟨.ok, d⟩ ∧ exec j s = .next u ∧ u.rsp = some ⟨.ok, e⟩ := by
  obtain ⟨t, d, ht, hd⟩ := exec_ok_of_accepted hs hi
  obtain ⟨u, e, hu, he⟩ := exec_ok_of_accepted hs hj
  exact ⟨t, d, u, e, ht, hd, hu, he⟩

/-- Settles O40: the rejected cells by the phase each command needs, the accepted ones by the invariant. -/
theorem acceptanceMatrix : Obligations.AcceptanceMatrix := by
  refine ⟨fun s x a b c => ⟨?_, ?_, ?_, exec_of_reserved rfl s, exec_of_reserved rfl s, exec_of_reserved rfl s⟩,
    fun s x a b c hs => ⟨?_, ?_, ?_⟩, rfl⟩
  · exact fun h => exec_of_phase_or rfl h nofun nofun
  · exact fun h => ⟨exec_of_phase_or rfl h nofun nofun, exec_of_phase_or rfl h nofun nofun⟩
  · exact fun h => ⟨exec_of_phase_or rfl h nofun nofun, exec_of_phase_or rfl h nofun nofun⟩
  · exact fun h => exec_ok_of_accepted hs (congrArg some h.symm)
  · exact fun h => exec_ok_of_both_accepted hs (congrArg some h.symm) (congrArg some h.symm)
  · exact fun h => exec_ok_of_both_accepted hs (congrArg some h.symm) (congrArg some h.symm)

/-! ### What a rejection leaves -/

/-- A command answered with a status other than OK wrote the response alone, with data 0 (60_exceptions.md R121). -/
theorem eq_respond_of_rejected {i : Instr} {s t : State} {st : Status} {d : Word} (h : exec i s = .next t)
    (hrsp : t.rsp = some ⟨st, d⟩) (hst : st ≠ .ok) : t = s.respond st 0#64 := by
  rcases exec_next h with ⟨-, rfl⟩ | ⟨p, -, -, rfl⟩ | ⟨d', -, hok, -⟩
  · cases hrsp
    rfl
  · cases hrsp
    rfl
  · cases hok.symm.trans hrsp
    exact absurd rfl hst

/-- Settles O41: of the three ways to answer, the two that are no OK write the response alone. -/
theorem rejectionWritesNothing : Obligations.RejectionWritesNothing :=
  fun _ _ _ _ _ h hrsp hst => eq_respond_of_rejected h hrsp hst

/-- Settles O42: a rejection writes the response alone, and no command reads the response. -/
theorem rejectionIsNotSticky : Obligations.RejectionIsNotSticky := by
  intro i s t st d h hrsp hst
  have hsame (j : Instr) : exec j t = exec j s := by
    rw [eq_respond_of_rejected h hrsp hst]
    exact exec_rsp j s _
  exact ⟨(hsame i).trans h, hsame⟩

/-- Settles O43: each way to answer fixes both the status and whether the command is reserved. -/
theorem causesAreDisjoint : Obligations.CausesAreDisjoint := by
  refine ⟨fun i s t d h => ?_, fun i s p hi => exec_of_reserved (acceptedPhase_eq_none.2 hi) _⟩
  rw [← acceptedPhase_eq_none, ← not_or, ← not_or, ← acceptedPhase_eq_none]
  rcases exec_next h with ⟨hi, rfl⟩ | ⟨p, hi, -, rfl⟩ | ⟨d', hi, hok, -⟩
  · exact ⟨fun _ => hi, nofun⟩
  · exact ⟨nofun, fun _ => by simp [hi]⟩
  · simp [hok]

end Sys2Proof.Machine

/-! SUPPORT. Reset, the one way through the lifecycle, and the bring-up: what the block does from reset on
(70_reset_and_hazards.md R140, R142, R143). -/

namespace Sys2Proof.Machine

/-! ### No absent value is read (70_reset_and_hazards.md R142) -/

/-- Settles O49: every step answers and keeps the invariant, so does every run, and the reset state meets the invariant
whatever the host presents. -/
theorem noAbsentValueIsEverRead : Obligations.NoAbsentValueIsEverRead :=
  ⟨fun _ hs => step_answersInv hs, fun n _ hs => run_answersInv n hs,
    fun n events => run_answersInv n (State.reset_inv.setPort events)⟩

/-! ### The one way through the lifecycle (10_state.md R17) -/

/-- Behind a phase check a command that answers was executed in its phase or left the phase as it was. -/
theorem requirePhase_phase {p : Phase} {s t : State} {body : Result} (h : requirePhase p s body = .next t) :
    t.phase = s.phase ∨ (s.phase = p ∧ body = .next t) := by
  rcases requirePhase_next h with hexec | ⟨-, rfl⟩
  · exact .inr hexec
  · exact .inl rfl

/-- Everything a command that answers can do to the phase, in every state (10_state.md R17). -/
theorem exec_phase {i : Instr} {s t : State} (h : exec i s = .next t) :
    t.phase = s.phase ∨
    (s.phase = .empty ∧ t.phase = .seeded ∧ ∃ x a b c, i = .gload x a b c) ∨
    (s.phase = .seeded ∧ t.phase = .built ∧ i = .build) := by
  cases i with
  | gload x a b c =>
    refine (requirePhase_phase h).imp_right fun ⟨hp, hb⟩ => .inl ⟨hp, ?_, x, a, b, c, rfl⟩
    cases hb
    rfl
  | gadv =>
    refine .inl ((requirePhase_phase h).elim id fun ⟨_, hb⟩ => ?_)
    obtain ⟨w, a, b, c, -, -, -, -, hb⟩ := readGen_next hb
    cases hb
    rfl
  | build =>
    refine (requirePhase_phase h).imp_right fun ⟨hp, hb⟩ => .inr ⟨hp, ?_, rfl⟩
    obtain ⟨w, a, b, c, -, -, -, -, hb⟩ := readGen_next hb
    rw [← Host.Outcome.next.inj hb]
    rfl
  | map x | unmap x =>
    refine .inl ((requirePhase_phase h).elim id fun ⟨_, hb⟩ => ?_)
    obtain ⟨num, -, rfl⟩ := respondWord_next hb
    rfl
  | reserved0 | reserved6 | reserved7 =>
    cases h
    exact .inl rfl

/-- In BUILT a command that answers writes the response alone (10_state.md sections 1 and 2). -/
theorem exec_of_built {i : Instr} {s t : State} (hp : s.phase = .built) (h : exec i s = .next t) :
    ∃ st d, t = s.respond st d := by
  cases i with
  | gload | gadv | build =>
    exact ⟨_, _, Host.Outcome.next.inj (h.symm.trans (exec_of_phase_ne rfl (by simp [hp])))⟩
  | map x | unmap x =>
    obtain ⟨num, -, ht⟩ := respondWord_next ((requirePhase_of_eq hp _).symm.trans h)
    exact ⟨_, _, ht⟩
  | reserved0 | reserved6 | reserved7 => exact ⟨_, _, (Host.Outcome.next.inj h).symm⟩

/-- A presented reset leaves the reset state, whatever the block held, and the port moves on (70_reset_and_hazards.md
R140). -/
theorem step_of_port_reset {s : State} {rest : List HostEvent} (h : s.port = .reset :: rest) :
    step s = .next (State.reset.setPort rest) := by
  simp only [step, h]
  rfl

/-- Settles O10: reset leaves the reset state; no transition of the phase ends in EMPTY, and in BUILT the response alone
is written. -/
theorem resetEmptiesTheBlock : Obligations.ResetEmptiesTheBlock := by
  refine ⟨fun s rest hport => ⟨_, step_of_port_reset hport, rfl, rfl, rfl, rfl, rfl, Memory.read_nil⟩,
    fun i s t h => ⟨fun hne => ?_, fun hp => ?_⟩⟩
  · rcases exec_phase h with hsame | ⟨-, ht, -⟩ | ⟨-, ht, -⟩
    · exact hsame ▸ hne
    · simp [ht]
    · simp [ht]
  · obtain ⟨st, d, rfl⟩ := exec_of_built hp h
    exact ⟨hp, rfl⟩

/-! ### Bring-up (70_reset_and_hazards.md R143) -/

/-- The port content that presents these commands, each assembled by the encoder. -/
def presented (cmds : List Instr) : List HostEvent := cmds.map fun i => .command (encode i)

/-- It is what `State.issue` puts on the port. -/
theorem State.issue_eq (cmds : List Instr) (s : State) : s.issue cmds = s.setPort (presented cmds) := rfl

/-- Presented commands run as the sequence they are, and what the host presents after them stays on the port
(70_reset_and_hazards.md R149). -/
theorem run_presented {cmds : List Instr} {s t : State} (h : execAll cmds s = .next t) (rest : List HostEvent) :
    run cmds.length (s.setPort (presented cmds ++ rest)) = .next (t.setPort rest) := by
  induction cmds generalizing s with
  | nil =>
    cases h
    rfl
  | cons i is ih =>
    obtain ⟨u, hu, hrest⟩ := execAll_cons_next h
    have hstep : step (s.setPort (presented (i :: is) ++ rest)) = .next (u.setPort (presented is ++ rest)) :=
      (step_of_port_encode rfl).trans (exec_setPort hu _)
    exact (run_succ_of_next hstep is.length).trans (ih hrest)

/-- So do commands presented behind a reset, from the reset state and whatever the block held. -/
theorem run_reset_presented {s t : State} {now later : List Instr}
    (hport : s.port = .reset :: presented (now ++ later)) (h : execAll now State.reset = .next t) :
    run (now.length + 1) s = .next (t.setPort (presented later)) := by
  rw [run_succ_of_next (step_of_port_reset hport), presented, List.map_append]
  exact run_presented h _

/-- After reset, GLOAD and BUILD and any transforms the block is BUILT and holds the table of GLOAD's operands. -/
theorem execAll_bringUp (seed : Word) (a b c : Amount) {cmds : List Instr} (hcmds : ∀ i ∈ cmds, isTransform i = true) :
    ∃ t, execAll (.gload seed a b c :: .build :: cmds) State.reset = .next t ∧ t.phase = .built ∧
      Memory.holds t.masks (table seed a b c) := by
  obtain ⟨u, hu, hp, -, -, hm⟩ := execAll_construction (s := State.reset) rfl seed a b c 0
  obtain ⟨r, hr⟩ := execAll_transforms_of_holds hp hm hcmds
  exact ⟨_, (execAll_append_of_next hu).trans hr, hp, hm⟩

/-- The next transform after that, presented behind a reset, is answered with what it answers on that table. -/
theorem run_bringUp_transform {s : State} {seed : Word} {a b c : Amount} {done later : List Instr} {i : Instr} {d : Word}
    (hport : s.port = .reset :: presented (.gload seed a b c :: .build :: (done ++ i :: later)))
    (hdone : ∀ j ∈ done, isTransform j = true)
    (hi : ∀ u : State, u.phase = .built → Memory.holds u.masks (table seed a b c) →
      exec i u = .next (u.respond .ok d)) :
    ∃ t, run (4 + done.length) s = .next t ∧ t.phase = .built ∧ t.rsp = some ⟨.ok, d⟩ := by
  obtain ⟨u, hu, hp, hm⟩ := execAll_bringUp seed a b c hdone
  have hall : execAll (.gload seed a b c :: .build :: (done ++ [i])) State.reset = .next (u.respond .ok d) :=
    (execAll_append_of_next hu).trans (execAll_cons_of_next (hi u hp hm) [])
  have hrun := run_reset_presented (later := later) (by simpa using hport) hall
  have hlen : (Instr.gload seed a b c :: .build :: (done ++ [i])).length + 1 = 4 + done.length := by
    simp only [List.length_cons, List.length_append, List.length_nil]
    omega
  rw [hlen] at hrun
  exact ⟨_, hrun, hp, rfl⟩

/-- Settles O53: the port runs the commands behind the reset as a sequence from the reset state; the sequence by the laws
of GLOAD, of the construction with no GADV, of the transforms of a table held, and of GADV. -/
theorem bringUpMakesTransformsAvailable : Obligations.BringUpMakesTransformsAvailable := by
  refine ⟨fun s seed a b c cmds hcmds hport => ⟨?_, ?_, fun done x later => ⟨?_, ?_⟩⟩, fun s seed a b c n hport => ?_⟩
  · obtain ⟨t, ht, hrsp, hp, -⟩ := exec_gload_seeds (s := State.reset) rfl seed a b c
    exact ⟨_, run_reset_presented (now := [_]) hport (execAll_cons_of_next ht []), hp, hrsp⟩
  · obtain ⟨t, ht, hp, hrsp, -⟩ := execAll_construction (s := State.reset) rfl seed a b c 0
    exact ⟨_, run_reset_presented hport ht, hp, hrsp⟩
  · rintro rfl
    exact run_bringUp_transform hport (fun j hj => hcmds j (List.mem_append_left _ hj))
      fun u hp hm => exec_map_of_holds hp hm x
  · rintro rfl
    exact run_bringUp_transform hport (fun j hj => hcmds j (List.mem_append_left _ hj))
      fun u hp hm => exec_unmap_of_holds hp hm x
  · obtain ⟨t, ht, -, hp, hg⟩ := exec_gload_seeds (s := State.reset) rfl seed a b c
    have hall := (execAll_cons_of_next ht _).trans (execAll_gadv_of_seeded hp hg n)
    have hrun := run_reset_presented (later := []) (by rw [List.append_nil]; exact hport) hall
    rw [List.length_cons, List.length_replicate] at hrun
    exact ⟨_, hrun, hp, rfl⟩

end Sys2Proof.Machine

/-! SUPPORT. The encoder's bundles and the assembler's check of its operands (30_encoding.md sections 7 and 8). -/

namespace Sys2Proof.Machine

open Sys2Proof.Laws

/-! ### The encoder's bundles -/

/-- A command's bundle carries its opcode in `cmd[2:0]` (30_encoding.md R48). -/
theorem cmdOp_encode (i : Instr) : cmdOp (encode i) = i.opcode := by
  cases i with
  | gload | gadv | build | map | unmap | reserved0 | reserved6 | reserved7 => exact cmdOp_bundleOf ..

/-- Settles O2: decoding reads the operands back; encoding after decoding clears the ignored fields, and decoding the
command's own bundle gives the command, so there was nothing to clear. -/
theorem decodeOfEncode : Obligations.DecodeOfEncode := fun i =>
  have hclear : clearIgnored (encode i) = encode i := by rw [← encode_decode, decode_encode]
  ⟨decode_encode i, cmdOp_encode i, hclear⟩

/-- Settles O6: eight closed facts, the decoder evaluated on each bundle. -/
theorem workedBundlesDecode : Obligations.WorkedBundlesDecode := by
  unfold Obligations.WorkedBundlesDecode
  decide

/-! ### The assembler's check (30_encoding.md R54) -/

/-- A seed or `x` is refused from `2^64` on. -/
theorem fitsWord_eq_false {n : Nat} : fitsWord n = false ↔ 2 ^ 64 ≤ n := by
  rw [fitsWord, decide_eq_false_iff_not]
  omega

/-- An amount is refused from `2^32` on. -/
theorem fitsAmount_eq_false {n : Nat} : fitsAmount n = false ↔ 2 ^ 32 ≤ n := by
  rw [fitsAmount, decide_eq_false_iff_not]
  omega

/-- A GLOAD line is refused exactly when one of its operands does not fit. -/
theorem assembleLine_gload_eq_none {seed a b c : Nat} :
    assembleLine (.gload seed a b c) = none ↔ 2 ^ 64 ≤ seed ∨ 2 ^ 32 ≤ a ∨ 2 ^ 32 ≤ b ∨ 2 ^ 32 ≤ c := by
  simp only [assembleLine_eq_none, AsmLine.wellFormed, Bool.and_eq_false_iff, fitsWord_eq_false, fitsAmount_eq_false,
    or_assoc]

/-- A MAP line is refused exactly when its operand does not fit. -/
theorem assembleLine_map_eq_none {x : Nat} : assembleLine (.map x) = none ↔ 2 ^ 64 ≤ x :=
  assembleLine_eq_none.trans fitsWord_eq_false

/-- So is an UNMAP line. -/
theorem assembleLine_unmap_eq_none {x : Nat} : assembleLine (.unmap x) = none ↔ 2 ^ 64 ≤ x :=
  assembleLine_eq_none.trans fitsWord_eq_false

/-- A line that is not refused is expanded. -/
theorem assembleLine_eq_expandLine {line : AsmLine} (h : assembleLine line ≠ none) :
    assembleLine line = some (expandLine line) :=
  assembleLine_eq_some.2 ⟨Bool.eq_true_of_not_eq_false (mt assembleLine_eq_none.2 h), rfl⟩

/-- A number that fits its field is not cut. -/
theorem toNat_ofNat_of_fits {w n : Nat} (h : n < 2 ^ w) : (BitVec.ofNat w n).toNat = n :=
  (BitVec.toNat_ofNat n w).trans (Nat.mod_eq_of_lt h)

/-- Settles O54: the refusals by the check of each operand; an operand that fits is not cut, so the bundle's integer is
that of the numbers of the line. -/
theorem assemblerTakesFittingOperands : Obligations.AssemblerTakesFittingOperands := by
  refine ⟨fun seed a b c => ⟨assembleLine_gload_eq_none, fun hseed ha hb hc => ?_⟩,
    fun x => ⟨assembleLine_map_eq_none, assembleLine_unmap_eq_none, fun hx => ?_⟩,
    _, _, rfl, bundleOf_zero_amounts_toNat .., rfl, bundleOf_zero_amounts_toNat ..⟩
  · refine ⟨_, assembleLine_eq_expandLine (mt assembleLine_gload_eq_none.1 (by omega)), ?_⟩
    rw [encode, bundleOf_toNat, toNat_ofNat_of_fits hseed, toNat_ofNat_of_fits ha, toNat_ofNat_of_fits hb,
      toNat_ofNat_of_fits hc]
    rfl
  · have hword : (BitVec.ofNat 64 x).toNat = x := toNat_ofNat_of_fits hx
    refine ⟨_, _, assembleLine_eq_expandLine (mt assembleLine_map_eq_none.1 (Nat.not_le.2 hx)), ?_,
      assembleLine_eq_expandLine (mt assembleLine_unmap_eq_none.1 (Nat.not_le.2 hx)), ?_⟩
    · rw [encode, bundleOf_zero_amounts_toNat, hword]
      rfl
    · rw [encode, bundleOf_zero_amounts_toNat, hword]
      rfl

end Sys2Proof.Machine

/-! SUPPORT. Everything a command and a step can write, and what follows from it: which command writes which element,
the transitions of the phase, and the canonical form of the table (10_state.md sections 3 and 6; 20_memory.md section 1). -/

namespace Sys2Proof.Machine

/-! ### The effect of a command -/

/-- The ways in which a command that answers can lead from `s` to `t`. -/
inductive Effect (s t : State) : Instr → Prop where
  /-- The response alone is written: a rejection, or a transform. -/
  | answer {i : Instr} (st : Status) (d : Word) (ht : t = s.respond st d) : Effect s t i
  /-- GLOAD writes the generator and moves to SEEDED (40_generator.md R66). -/
  | load (x : Word) (a b c : Amount) (ht : t = ((s.loadGen x a b c).setPhase .seeded).respond .ok 0#64) :
    Effect s t (.gload x a b c)
  /-- GADV writes `state` (40_generator.md R70). -/
  | draw (w : Word) (ht : t = (s.setGen w).respond .ok w) : Effect s t .gadv
  /-- BUILD writes `state` and the table as its loop leaves them, and moves to BUILT (41_table_build.md R82). -/
  | fill (w : Word) (a b c : Amount) (m : Memory)
    (hloop : buildLoop a b c (List.finRange 128) w s.masks = (tableState w a b c, m))
    (ht : t = (((s.setGen (tableState w a b c)).setMasks m).setPhase .built).respond .ok 0#64) : Effect s t .build

/-- Behind a phase check only the executed case is left to show. -/
theorem requirePhase_effect {i : Instr} {p : Phase} {s t : State} {body : Result} (h : requirePhase p s body = .next t)
    (hbody : body = .next t → Effect s t i) : Effect s t i := by
  rcases requirePhase_next h with ⟨-, hb⟩ | ⟨-, ht⟩
  · exact hbody hb
  · exact .answer _ _ ht

/-- Everything a command that answers can write, in every state. -/
theorem exec_effect {i : Instr} {s t : State} (h : exec i s = .next t) : Effect s t i := by
  cases i with
  | gload x a b c => exact requirePhase_effect h fun hb => .load x a b c (Host.Outcome.next.inj hb).symm
  | gadv =>
    refine requirePhase_effect h fun hb => ?_
    obtain ⟨w, a, b, c, -, -, -, -, hb⟩ := readGen_next hb
    exact .draw _ (Host.Outcome.next.inj hb).symm
  | build =>
    refine requirePhase_effect h fun hb => ?_
    obtain ⟨w, a, b, c, -, -, -, -, hb⟩ := readGen_next hb
    obtain ⟨m, hloop, -⟩ := buildLoop_fills w a b c s.masks
    rw [hloop] at hb
    exact .fill w a b c m hloop (Host.Outcome.next.inj hb).symm
  | map x | unmap x =>
    refine requirePhase_effect h fun hb => ?_
    obtain ⟨num, -, ht⟩ := respondWord_next hb
    exact .answer _ _ ht
  | reserved0 | reserved6 | reserved7 => exact .answer _ _ (Host.Outcome.next.inj h).symm

/-- Settles O45: each way to answer shows what it writes; a command that would write more is excluded by name. -/
theorem commandsWriteOnlyTheirElements : Obligations.CommandsWriteOnlyTheirElements := by
  intro i s t h
  cases exec_effect h with
  | answer st d ht =>
    subst ht
    exact ⟨rfl, fun _ => rfl, fun _ => ⟨rfl, rfl, rfl⟩, fun _ _ _ => rfl, fun _ _ => rfl⟩
  | load x a b c ht =>
    subst ht
    have notGload {p : Prop} (hne : ∀ x' a' b' c', Instr.gload x a b c ≠ .gload x' a' b' c') : p :=
      absurd rfl (hne x a b c)
    exact ⟨rfl, fun _ => rfl, fun hne => notGload hne, fun hne => notGload hne, fun hne => notGload hne⟩
  | draw w ht =>
    subst ht
    exact ⟨rfl, fun _ => rfl, fun _ => ⟨rfl, rfl, rfl⟩, fun _ hne => absurd rfl hne, fun _ _ => rfl⟩
  | fill w a b c m hloop ht =>
    subst ht
    exact ⟨rfl, fun hne => absurd rfl hne, fun _ => ⟨rfl, rfl, rfl⟩, fun _ _ hne => absurd rfl hne,
      fun _ hne => absurd rfl hne⟩

/-- No command touches what the host presents next (10_state.md section 6). -/
theorem exec_port {i : Instr} {s t : State} (h : exec i s = .next t) : t.port = s.port :=
  (commandsWriteOnlyTheirElements i s t h).1

/-- A command keeps the table's canonical form: BUILD writes entries of the table alone, the others write none. -/
theorem exec_masks_wf {i : Instr} {s t : State} (hs : Memory.wf s.masks = true) (h : exec i s = .next t) :
    Memory.wf t.masks = true := by
  cases exec_effect h with
  | answer _ _ ht | load _ _ _ _ ht | draw _ ht => exact ht ▸ hs
  | fill w a b c m hloop ht =>
    have hm : Memory.wf m = true := by
      have hwf := buildLoop_wf a b c (List.finRange 128) w hs
      rwa [hloop] at hwf
    exact ht ▸ hm

/-! ### The effect of a step -/

/-- With nothing presented the block idles (60_exceptions.md R129). -/
theorem step_of_port_nil {s : State} (h : s.port = []) : step s = .next s := by
  simp only [step, h]

/-- Everything a step that answers can do: idle, reset, or execute the presented command. -/
theorem step_next {s t : State} (h : step s = .next t) :
    (s.port = [] ∧ t = s) ∨
    (∃ rest, s.port = .reset :: rest ∧ t = State.reset.setPort rest) ∨
    (∃ cmd rest, s.port = .command cmd :: rest ∧ exec (decode cmd) (s.setPort rest) = .next t) := by
  match hport : s.port with
  | [] => exact .inl ⟨rfl, (Host.Outcome.next.inj ((step_of_port_nil hport).symm.trans h)).symm⟩
  | .reset :: rest =>
    exact .inr (.inl ⟨rest, rfl, (Host.Outcome.next.inj ((step_of_port_reset hport).symm.trans h)).symm⟩)
  | .command cmd :: rest => exact .inr (.inr ⟨cmd, rest, rfl, (step_of_port hport).symm.trans h⟩)

/-- Settles O50: idling leaves the table, reset empties it, and a command keeps its form. -/
theorem stepKeepsTableForm : Obligations.StepKeepsTableForm := by
  intro s t hs h
  rcases step_next h with ⟨-, rfl⟩ | ⟨rest, -, rfl⟩ | ⟨cmd, rest, -, hexec⟩
  · exact hs
  · exact State.reset_masks_wf
  · exact exec_masks_wf (s := s.setPort rest) hs hexec

/-- Settles O44: the transitions of a command; and of the three kinds of step, idling leaves the phase and a command
never leads to EMPTY from elsewhere, so it was a reset. -/
theorem lifecycleIsOneWay : Obligations.LifecycleIsOneWay := by
  refine ⟨fun _ _ _ h => exec_phase h, fun s t h hs ht => ?_⟩
  rcases step_next h with ⟨-, rfl⟩ | ⟨rest, hport, -⟩ | ⟨cmd, rest, -, hexec⟩
  · exact absurd ht hs
  · exact ⟨rest, hport⟩
  · rcases exec_phase hexec with hsame | ⟨-, hseeded, -⟩ | ⟨-, hbuilt, -⟩
    · exact absurd (hsame.symm.trans ht) hs
    · cases hseeded.symm.trans ht
    · cases hbuilt.symm.trans ht

/-- Settles O8: the three kinds of step by their equations, and the port by the effect of a command. -/
theorem stepRunsDecodedCommand : Obligations.StepRunsDecodedCommand := by
  refine ⟨fun s cmd rest hport => ⟨step_of_port hport, fun t h => ?_⟩, fun s nbits w => ⟨?_, rfl⟩,
    fun s rest hport => ⟨_, step_of_port_reset hport, rfl, rfl⟩⟩
  · exact exec_port ((step_of_port hport).symm.trans h)
  · have hport : (s.withFetchWord nbits w).port = .command (tableBundle nbits w) :: s.port := rfl
    rw [step_of_port hport, State.withFetchWord_eq, State.setPort_setPort, State.setPort_self]

/-- Settles O9: the step's own equation for an empty port. -/
theorem idleStepChangesNothing : Obligations.IdleStepChangesNothing := fun _ => step_of_port_nil

/-- Settles O48: the invariant holds of the reset state and does not look at the port. -/
theorem lifecycleHoldsAtReset : Obligations.LifecycleHoldsAtReset :=
  ⟨State.reset_inv, fun rest => State.reset_inv.setPort rest⟩

end Sys2Proof.Machine

/-! SUPPORT. A built block: what a command can write, what its response depends on, and what its table holds
(10_state.md sections 1 and 2; 93_implementation_defined.md U11). -/

namespace Sys2Proof.Machine

/-- Settles O46: in BUILT a command writes the response alone. -/
theorem builtBlockIsReadOnly : Obligations.BuiltBlockIsReadOnly := by
  intro i s t hp h
  obtain ⟨st, d, rfl⟩ := exec_of_built hp h
  rfl

/-- What a command answers in BUILT is fixed by the command and the words of the table: a transform of the table, or a
rejection (60_exceptions.md R122, R123). -/
theorem exec_of_built_holds (i : Instr) (tbl : Table) :
    ∃ st d, ∀ s : State, s.phase = .built → Memory.holds s.masks tbl → exec i s = .next (s.respond st d) := by
  cases i with
  | gload | gadv | build => exact ⟨_, _, fun s hp _ => exec_of_phase_ne rfl (by simp [hp])⟩
  | map x => exact ⟨_, _, fun s hp hm => exec_map_of_holds hp hm x⟩
  | unmap x => exact ⟨_, _, fun s hp hm => exec_unmap_of_holds hp hm x⟩
  | reserved0 | reserved6 | reserved7 => exact ⟨_, _, fun s _ _ => exec_of_reserved rfl s⟩

/-- Settles O47: both blocks are BUILT and hold the same table, which fixes the answer. -/
theorem builtResponsesIgnoreGenerator : Obligations.BuiltResponsesIgnoreGenerator := by
  intro i s tbl g a b c hp hm
  obtain ⟨st, d, hanswer⟩ := exec_of_built_holds i tbl
  exact ⟨_, _, hanswer s hp hm, hanswer { s with state := g, shiftA := a, shiftB := b, shiftC := c } hp hm, rfl⟩

/-- Settles O51: a built table is one the construction computes, whose entries have their own bits clear. -/
theorem builtTableHasClearedBits : Obligations.BuiltTableHasClearedBits := by
  intro s hs hp k
  obtain ⟨w, a, b, c, hm, -⟩ := hs.tableBuilt hp
  exact ⟨(table w a b c)[k], hm ▸ Memory.read_ofTable _ k, ownBitsClear_table w a b c k⟩

end Sys2Proof.Machine

/-! SUPPORT. Tables in canonical form are determined by their reads (20_memory.md section 1; log 2), and reads of absent
values (93_implementation_defined.md U8). -/

namespace Sys2Proof.Machine

/-! ### Reads of a table in canonical form -/

/-- The first cell reads as its word. -/
@[simp] theorem Memory.read_cons_self (a : Nat) (u : Word) (m : Memory) : Memory.read ((a, u) :: m) a = some u :=
  if_pos rfl

/-- The first cell is not seen at another index. -/
theorem Memory.read_cons_of_ne {a k : Nat} (h : a ≠ k) (u : Word) (m : Memory) :
    Memory.read ((a, u) :: m) k = Memory.read m k := if_neg h

/-- An index that reads as a word is listed. -/
theorem Memory.mem_of_read {m : Memory} {k : Nat} {v : Word} (h : Memory.read m k = some v) : (k, v) ∈ m := by
  induction m with
  | nil => cases h
  | cons cell m ih =>
    obtain ⟨a, u⟩ := cell
    by_cases hak : a = k
    · subst hak
      cases (Memory.read_cons_self a u m).symm.trans h
      exact List.mem_cons_self
    · exact List.mem_cons_of_mem _ (ih ((Memory.read_cons_of_ne hak u m).symm.trans h))

/-- In the canonical form the first cell's index does not occur in the rest. -/
theorem Memory.read_tail_self {a : Nat} {u : Word} {m : Memory} (hm : Memory.wf ((a, u) :: m) = true) :
    Memory.read m a = none := by
  obtain ⟨-, hlt, -⟩ := Memory.wf_cons.1 hm
  refine Option.eq_none_iff_forall_ne_some.2 fun v hv => ?_
  exact Nat.lt_irrefl a (hlt _ (Memory.mem_of_read hv))

/-- In the canonical form the first cell has the least index that holds a value. -/
theorem Memory.head_le_of_read {a k : Nat} {u v : Word} {m : Memory} (hm : Memory.wf ((a, u) :: m) = true)
    (h : Memory.read ((a, u) :: m) k = some v) : a ≤ k := by
  obtain ⟨-, hlt, -⟩ := Memory.wf_cons.1 hm
  rcases List.mem_cons.1 (Memory.mem_of_read h) with heq | hmem
  · cases heq
    exact Nat.le_refl _
  · exact Nat.le_of_lt (hlt _ hmem)

/-- Canonical tables that read alike list the same cells: the first is the least that holds a value in both, and the
rests read alike again. -/
theorem Memory.eq_of_read_eq {m m' : Memory} (hm : Memory.wf m = true) (hm' : Memory.wf m' = true)
    (h : ∀ k, Memory.read m k = Memory.read m' k) : m = m' := by
  induction m generalizing m' with
  | nil =>
    cases m' with
    | nil => rfl
    | cons cell' m' => exact absurd (h cell'.1) (by simp [Memory.read])
  | cons cell m ih =>
    cases m' with
    | nil => exact absurd (h cell.1) (by simp [Memory.read])
    | cons cell' m' =>
      obtain ⟨a, u⟩ := cell
      obtain ⟨a', u'⟩ := cell'
      obtain rfl : a = a' := Nat.le_antisymm
        (Memory.head_le_of_read hm ((h a').trans (Memory.read_cons_self a' u' m')))
        (Memory.head_le_of_read hm' ((h a).symm.trans (Memory.read_cons_self a u m)))
      obtain rfl : u = u' := by simpa using h a
      have hrest (k : Nat) : Memory.read m k = Memory.read m' k := by
        by_cases hak : a = k
        · rw [← hak, Memory.read_tail_self hm, Memory.read_tail_self hm']
        · rw [← Memory.read_cons_of_ne hak u m, h k, Memory.read_cons_of_ne hak u m']
      obtain ⟨-, -, htail⟩ := Memory.wf_cons.1 hm
      obtain ⟨-, -, htail'⟩ := Memory.wf_cons.1 hm'
      rw [ih htail htail' hrest]

/-- Settles O26: by induction along both tables. -/
theorem canonicalTablesThatReadAlikeAreEqual : Obligations.CanonicalTablesThatReadAlikeAreEqual :=
  fun _ _ hm hm' h => Memory.eq_of_read_eq hm hm' h

/-! ### Reads of absent values (93_implementation_defined.md U8) -/

/-- In SEEDED a generator that cannot be read stops GADV and BUILD alike. -/
theorem exec_of_readGen_fault {s : State} {f : Fault} (hp : s.phase = .seeded)
    (h : ∀ body, readGen s body = .fault f) : exec .gadv s = .fault f ∧ exec .build s = .fault f :=
  ⟨(requirePhase_of_eq hp _).trans (h _), (requirePhase_of_eq hp _).trans (h _)⟩

/-- On an empty table the first stage finds no mask. -/
theorem runStages_nil {is : List Round} (h : is ≠ []) (x : Word) : runStages [] is x = none := by
  cases is with
  | nil => exact absurd rfl h
  | cons i is => rfl

/-- So in BUILT with an empty table the stages of any rounds stop. -/
theorem transform_of_masks_nil {s : State} {is : List Round} (hp : s.phase = .built) (hm : s.masks = [])
    (his : is ≠ []) (x : Word) : requirePhase .built s (respondWord (runStages s.masks is x) s) = .fault .absentMask := by
  rw [requirePhase_of_eq hp, hm, runStages_nil his]
  rfl

/-- Settles O52: the generator is read in its order up to the register that is absent; the table at the first stage. -/
theorem absentReadIsAnError : Obligations.AbsentReadIsAnError := by
  have hrounds : rounds ≠ [] := List.ne_nil_of_length_pos (by rw [rounds_length]; decide)
  refine ⟨fun s hp hw => exec_of_readGen_fault hp fun body => ?_,
    fun s w hp hw ha => exec_of_readGen_fault hp fun body => ?_,
    fun s w a hp hw ha hb => exec_of_readGen_fault hp fun body => ?_,
    fun s w a b hp hw ha hb hc => exec_of_readGen_fault hp fun body => ?_,
    fun s x hp hm => ⟨transform_of_masks_nil hp hm hrounds x,
      transform_of_masks_nil hp hm (mt List.reverse_eq_nil_iff.1 hrounds) x⟩⟩
  · rw [readGen, hw, readReg_none]
  · rw [readGen, hw, readReg_some, ha, readReg_none]
  · rw [readGen, hw, readReg_some, ha, readReg_some, hb, readReg_none]
  · rw [readGen, hw, readReg_some, ha, readReg_some, hb, readReg_some, hc, readReg_none]

end Sys2Proof.Machine

/-! SUPPORT. What a stage changes, and the order of the stages (42_mixing_pipeline.md sections 2 and 3). -/

namespace Sys2Proof.Machine

/-- A stage changes exactly the bits other than its own at which the selected mask has a 0 (42_mixing_pipeline.md
section 2). -/
theorem stage_getLsbD_ne_iff (t : Table) (i : Round) (num : Word) {j : Nat} (hj : j < 64) :
    (stage t i num).getLsbD j ≠ num.getLsbD j ↔ j ≠ i.val ∧ t[maskIndex i num].getLsbD j = false := by
  by_cases hown : j = i.val
  · rw [hown]
    exact iff_of_false (fun h => h (stage_getLsbD_own t i num)) fun h => h.1 rfl
  · rw [stage_getLsbD_other t i num hj hown]
    cases num.getLsbD j with
    | false => simp [hown]
    | true => simp [hown]

/-- Settles O31: the law of a stage's bits; the example by evaluation. -/
theorem stageFlipsWhereMaskIsZero : Obligations.StageFlipsWhereMaskIsZero :=
  ⟨fun t i num _ hj => stage_getLsbD_ne_iff t i num hj, by decide +kernel⟩

/-- Settles O32: in the table of seed 1, the stages 0 and 1 on the word 0, and the two transforms of 0. -/
theorem stagesDoNotCommute : Obligations.StagesDoNotCommute :=
  ⟨⟨table 1#64 13#32 7#32 17#32, 0, 1, 0#64, by decide, by decide +kernel⟩,
    ⟨table 1#64 13#32 7#32 17#32, 0#64, by decide +kernel⟩⟩

end Sys2Proof.Machine
